-- ==== Sys2Proof/Word.lean ====
section
/-! DEFINITION. The word types of the smol-riscv core (spec 00_scope.md R6, R9). -/

namespace Sys2Proof

/-- A register value, a pc value, an address or an instruction word: 32 bits (R6, R9). -/
abbrev Word := BitVec 32

/-- One byte of the memory image (R40). -/
abbrev Byte := BitVec 8

/-- A 5-bit register index, taken from an instruction field as it stands (R20, R64). -/
abbrev RegIndex := BitVec 5

end Sys2Proof
end

