-- ==== Sys2Proof/Machine/Flags.lean ====
section
/-! DEFINITION. The one arithmetic result of the hardware. It has NO flags and no condition codes (spec 10_state.md R32):
an addition records neither its carry nor its overflow (41_integer_arithmetic.md R102), so no flag computation stands here. -/

namespace Sys2Proof.Machine

/-- (a + b) mod 2^32 (R10, R102). -/
def wrapAdd (a b : Word) : Word := BitVec.ofNat 32 ((a.toNat + b.toNat) % 2 ^ 32)

end Sys2Proof.Machine
end

