-- ==== Sys2Proof/Syntax.lean ====
section
/-! DEFINITION. The decoded Operation (spec 30_encoding.md R67): one constructor per row of the opcode table. -/

namespace Sys2Proof

/-- The closed sum of R67. Each case carries only the fields it needs. -/
inductive Instr where
  /-- AddImm: register-immediate add, its immediate already sign-extended to 32 bits (R67, R100). -/
  | addi (rd rs1 : RegIndex) (imm : Word)
  /-- AddReg: register-register add (R67, R101). -/
  | add (rd rs1 rs2 : RegIndex)
  deriving DecidableEq, Repr

end Sys2Proof
end

