-- ==== Sys2Proof/WellFormed.lean ====
section
/-! DEFINITION. Which terms of Instr some instruction word stands for (spec 30_encoding.md R64, R67). -/

namespace Sys2Proof

/-- An ADDI immediate is a 32-bit value between −2048 and +2047 in two's complement (R64).
An ADD has no field that could be out of range: its indices are 5 bits by their type. -/
def Instr.wellFormed : Instr → Bool
  | .addi _ _ imm => decide (-2048 ≤ imm.toInt) && decide (imm.toInt ≤ 2047)
  | .add _ _ _ => true

end Sys2Proof
end

