-- ==== Sys2Proof/Decode.lean ====
section
/-! DEFINITION. Bit fields, sign extension, byte order, the decoder and the encoder
(spec 00_scope.md R11, 20_memory.md R42, 30_encoding.md R60-R70). -/

namespace Sys2Proof

/-- zext_32: a field zero-extended to 32 bits (R11). -/
def zext {n : Nat} (v : BitVec n) : Word := v.setWidth 32

/-- sext_N, by R11's algorithm: when the field's top bit is 1, OR the value with all-ones shifted left by N. -/
def sext {n : Nat} (v : BitVec n) : Word :=
  if v.msb then zext v ||| (0xFFFFFFFF#32 <<< n) else zext v

/-- The word made of four distinct bytes, byte k at address + k, little-endian (R41, R42). -/
def wordOfBytes (b0 b1 b2 b3 : Byte) : Word :=
  zext b0 ||| (zext b1 <<< 8) ||| (zext b2 <<< 16) ||| (zext b3 <<< 24)

/-- Byte k of a word as it lies in the image: bits 8k+7 .. 8k (R42). -/
def byteOfWord (w : Word) (k : Nat) : Byte := w.extractLsb' (8 * k) 8

/-- The four bytes of a word in address order (R42). -/
def bytesOfWord (w : Word) : List Byte :=
  [byteOfWord w 0, byteOfWord w 1, byteOfWord w 2, byteOfWord w 3]

/-! The instruction fields of R61. The positions of rd, rs1, rs2 and funct7 are PRESUMED by the spec
(decision D5; assumption 6). -/

def opcodeField (w : Word) : BitVec 7 := w.extractLsb 6 0
def rdField (w : Word) : RegIndex := w.extractLsb 11 7
def funct3Field (w : Word) : BitVec 3 := w.extractLsb 14 12
def rs1Field (w : Word) : RegIndex := w.extractLsb 19 15
def rs2Field (w : Word) : RegIndex := w.extractLsb 24 20
def funct7Field (w : Word) : BitVec 7 := w.extractLsb 31 25
def imm12Field (w : Word) : BitVec 12 := w.extractLsb 31 20

/-- What the decoder says of a word it has no operation for: UnsupportedInstruction without the pc, which
the fetch unit adds (R66, R131). -/
structure UnsupportedWord where
  word : Word
  opcode : BitVec 7
  /-- Present exactly for the two opcodes that dispatch on funct3 (decision D8; assumption 8). -/
  funct3 : Option (BitVec 3)
  deriving DecidableEq, Repr

/-- The decoder (R65, R66): a total function of the 32 bits of the word. -/
def decode (w : Word) : Except UnsupportedWord Instr :=
  let opcode := opcodeField w
  let funct3 := funct3Field w
  if opcode = 0x13#7 then
    if funct3 = 0b000#3 then .ok (.addi (rdField w) (rs1Field w) (sext (imm12Field w)))
    else .error { word := w, opcode := opcode, funct3 := some funct3 }
  else if opcode = 0x33#7 then
    if funct3 = 0b000#3 ∧ funct7Field w = 0b0000000#7 then
      .ok (.add (rdField w) (rs1Field w) (rs2Field w))
    else .error { word := w, opcode := opcode, funct3 := some funct3 }
  else .error { word := w, opcode := opcode, funct3 := none }

/-- The register-immediate format (R62). -/
def iFormat (imm12 : BitVec 12) (rs1 : RegIndex) (funct3 : BitVec 3) (rd : RegIndex) (opcode : BitVec 7) : Word :=
  (imm12 ++ rs1 ++ funct3 ++ rd ++ opcode).cast (by decide)

/-- The register-register format (R63). -/
def rFormat (funct7 : BitVec 7) (rs2 rs1 : RegIndex) (funct3 : BitVec 3) (rd : RegIndex) (opcode : BitVec 7) : Word :=
  (funct7 ++ rs2 ++ rs1 ++ funct3 ++ rd ++ opcode).cast (by decide)

/-- The word of an instruction, with the fixed fields of its row (R100, R101). -/
def encode : Instr → Word
  | .addi rd rs1 imm => iFormat (imm.extractLsb 11 0) rs1 0b000#3 rd 0x13#7
  | .add rd rs1 rs2 => rFormat 0b0000000#7 rs2 rs1 0b000#3 rd 0x33#7

/-- The mask of an instruction's row of spec/opcode_table.json (R68). -/
def rowMask : Instr → Word
  | .addi _ _ _ => 0x0000707F#32
  | .add _ _ _ => 0xFE00707F#32

/-- The match value of an instruction's row of spec/opcode_table.json (R68). -/
def rowMatch : Instr → Word
  | .addi _ _ _ => 0x00000013#32
  | .add _ _ _ => 0x00000033#32

/-- The word whose low nbits bits are w's, every other bit 0. -/
def tableWord (nbits w : Nat) : Word := BitVec.ofNat 32 (w % 2 ^ nbits)

/-- What the decoder reads from a table word laid out in bytes as the image stores it. -/
def decodeTableWord (nbits w : Nat) : Option Instr :=
  let b := byteOfWord (tableWord nbits w)
  (decode (wordOfBytes (b 0) (b 1) (b 2) (b 3))).toOption

end Sys2Proof
end

