-- ==== Sys2Proof/Config.lean ====
section
/-! DEFINITION. The one configuration value of the core, MEM_CAPACITY (spec 00_scope.md R7). -/

namespace Sys2Proof

/-- What is fixed when the core is constructed (R7, R160). -/
structure Config where
  /-- MEM_CAPACITY: the maximum size of the memory image, in bytes. -/
  memCapacity : Nat
  deriving DecidableEq, Repr

/-- R7's constraint: 1 ≤ MEM_CAPACITY ≤ 2^32 − 1. -/
abbrev Config.Valid (cfg : Config) : Prop :=
  1 ≤ cfg.memCapacity ∧ cfg.memCapacity ≤ 2 ^ 32 - 1

/-- R7's default: 64 MiB. -/
def Config.default : Config := { memCapacity := 0x04000000 }

end Sys2Proof
end

