-- ==== Sys2Proof/Machine/State.lean ====
section
/-! DEFINITION. The state of the core, its errors and its reset (spec 10_state.md R20-R34, 60_exceptions.md R130-R134). -/

namespace Sys2Proof.Machine

/-- The record of an error (R130). It carries fields and no number (R133). -/
inductive ErrorRecord where
  /-- Raised by the decoder, placed in the state by the fetch unit (R131). `pc` is the word's fetch address. -/
  | unsupportedInstruction (word : Word) (opcode : BitVec 7) (funct3 : Option (BitVec 3)) (pc : Word)
  /-- Raised by the fetch unit when the image holds only part of the word at pc (R132). -/
  | outOfBoundsFetch (address : Word)
  deriving DecidableEq, Repr

/-- The bytes of the image, in one canonical form: addresses strictly rising, no entry whose byte is 0
(assumption 4). `Memory.wf` in Ops.lean says it. -/
abbrev Memory := List Host.Cell

/-- The complete state of the core (R31; 10_state.md's State tuple).
Its run status is `State.status` of Ops.lean, a function of these fields as R30 says. -/
structure State where
  /-- x_store: the stored values of x0..x31 (R20), read only through `rfRead` (R21). -/
  xStore : Vector Word 32
  /-- The program counter (R26). -/
  pc : Word
  /-- IMAGE_LEN (R8): addresses 0 .. imageLen − 1 hold bytes, no other address does (R40). -/
  imageLen : Nat
  /-- The bytes of the image (R40); an address below imageLen that is not listed holds 0. -/
  mem : Memory
  /-- The error of status Faulted(e), recorded and sticky; none while Running or Halted (R30). -/
  error : Option ErrorRecord
  deriving DecidableEq, Repr

/-- Why a step does not happen. Neither is an effect of an instruction. -/
inductive Fault where
  /-- Raised by `step` when the core is Halted: R83 gives it no step. It is the run's normal end, not an error
  of the core. Safe: nothing is claimed of a step the core does not take. -/
  | halted
  /-- Raised by `step` when the core is Faulted(e): R135 gives it no step. Safe, for the same reason. -/
  | faulted (e : ErrorRecord)
  deriving DecidableEq, Repr

/-- What the spec gives no meaning to. -/
inductive Refusal where
  /-- Raised by an arm of `exec` whose instruction has no meaning yet; no arm does. Safe. -/
  | notModelled (mnemonic : String)
  /-- Raised by `readWord` at an address that is no multiple of 4, which the spec refuses (R44, decision D9).
  Safe: no run from a construction reaches it. -/
  | misalignedRead (address : Word)
  /-- Raised by `construct` for a program buffer longer than MEM_CAPACITY (R47). Safe: no state exists. -/
  | programTooLong (length : Nat)
  /-- Raised by `construct` for a MEM_CAPACITY outside the range R7 states as a constraint. That this is a refused
  construction is the model's choice (DESIGN CHOICE, assumption 13). Safe: no state exists. -/
  | capacityOutOfRange (capacity : Nat)
  deriving DecidableEq, Repr

/-- The state reset leaves, apart from the program's bytes (R34, R161): x1 = MEM_CAPACITY, every other register
and pc 0, no error, and an image of length 0. `construct` of Ops.lean puts the program in. -/
def State.initial (cfg : Config) : State :=
  { xStore := (Vector.replicate 32 0#32).set 1 (BitVec.ofNat 32 cfg.memCapacity)
    pc := 0#32
    imageLen := 0
    mem := []
    error := none }

/-- Reset with the default MEM_CAPACITY and the empty program (R164; assumption 2). -/
def State.reset : State := State.initial Config.default

end Sys2Proof.Machine
end

