-- ==== Sys2Proof/Machine/Ops.lean ====
section
/-! DEFINITION. The named operations over registers, pc, image and run status that every step is made of
(spec 10_state.md, 20_memory.md, 40_execution_cycle.md, 60_exceptions.md, 70_reset_and_hazards.md). -/

namespace Sys2Proof.Machine

/-! ## Register file -/

/-- Read port rf_read (R21): index 0 reads as zero whatever its storage holds. -/
def rfRead (s : State) (i : RegIndex) : Word :=
  if i = 0#5 then 0#32 else s.xStore[i.toNat]'i.isLt

/-- Write port rf_write (R22): a write to index 0 is discarded. -/
def rfWrite (s : State) (i : RegIndex) (v : Word) : State :=
  if i = 0#5 then s else { s with xStore := s.xStore.set i.toNat v i.isLt }

/-! ## The memory image -/

/-- What an address of the image that is not listed holds (assumption 4). -/
def Memory.unlisted : Byte := 0#8

/-- The canonical form: addresses strictly rising, and no entry equal to what an unlisted address holds. -/
abbrev Memory.wf (m : Memory) : Prop :=
  m.Pairwise (fun c d => c.1 < d.1) ∧ ∀ c ∈ m, c.2 ≠ Memory.unlisted

/-- The byte at an address. -/
def Memory.read : Memory → Nat → Byte
  | [], _ => Memory.unlisted
  | c :: m, a => if c.1 = a then c.2 else Memory.read m a

/-- The memory with nothing listed at an address. -/
def Memory.erase (m : Memory) (a : Nat) : Memory := m.filter (fun c => c.1 ≠ a)

/-- The memory with one entry put in before the first higher address. -/
def Memory.insert : Memory → Nat → Byte → Memory
  | [], a, v => [(a, v)]
  | c :: m, a, v => if a < c.1 then (a, v) :: c :: m else c :: Memory.insert m a v

/-- The memory with the byte at an address set. Only loading an image writes: no instruction does (R51). -/
def Memory.write (m : Memory) (a : Nat) (v : Byte) : Memory :=
  if v = Memory.unlisted then Memory.erase m a else Memory.insert (Memory.erase m a) a v

/-- The memory with a row of bytes laid out from an address upwards (R34, R46, R161). -/
def Memory.load (a : Nat) : List Byte → Memory → Memory
  | [], m => m
  | b :: bs, m => Memory.load (a + 1) bs (Memory.write m a b)

/-- One byte of the address space: no address at or above IMAGE_LEN is backed (R40). -/
def readByte (s : State) (a : Nat) : Option Byte :=
  if a < s.imageLen then some (Memory.read s.mem a) else none

/-- What the instruction memory interface answers (R41, R44). -/
inductive ReadResult where
  | ok (word : Word)
  | err (e : ErrorRecord)
  /-- Not an error value (R44). -/
  | refused (r : Refusal)
  deriving DecidableEq, Repr

/-- read_word (R41, R42, R44). The bound is compared between naturals, without wrap-around (R10). -/
def readWord (s : State) (a : Word) : ReadResult :=
  if a.toNat % 4 ≠ 0 then .refused (.misalignedRead a)
  else if s.imageLen < a.toNat + 4 then .err (.outOfBoundsFetch a)
  else
    let byte := fun k => Memory.read s.mem (a.toNat + k)
    .ok (wordOfBytes (byte 0) (byte 1) (byte 2) (byte 3))

/-! ## Run status -/

/-- The run status (R30). -/
inductive Status where
  | running
  | halted
  | faulted (e : ErrorRecord)
  deriving DecidableEq, Repr

/-- R30's function of the recorded error, pc and IMAGE_LEN. -/
def State.status (s : State) : Status :=
  match s.error with
  | some e => .faulted e
  | none => if s.imageLen ≤ s.pc.toNat then .halted else .running

/-! ## Fetch unit -/

/-- The fetch unit's one request of a step: the word at pc (R81). -/
def fetch (s : State) : ReadResult := readWord s s.pc

/-- The fetch unit's advance after a successful fetch, before decoding (R82). -/
def advancePc (s : State) : State := { s with pc := s.pc + 4#32 }

/-! ## Errors -/

/-- The decoder's report with the fetch address added (R66, R131; decision D6). -/
def unsupportedRecord (u : UnsupportedWord) (fetchAddress : Word) : ErrorRecord :=
  .unsupportedInstruction u.word u.opcode u.funct3 fetchAddress

/-- Error entry (R134): the status becomes Faulted(e) and nothing else changes. There is no return from it (R135). -/
def raise (e : ErrorRecord) (s : State) : State := { s with error := some e }

/-! ## Construction -/

/-- Construction from a program buffer, which is the hardware's reset (R160, R161). An over-long program is refused as R47
says; refusing a capacity outside R7's range, and testing that first, is the model's choice (DESIGN CHOICE, assumption 13). -/
def construct (cfg : Config) (program : List Byte) : Except Refusal State :=
  if ¬ cfg.Valid then .error (.capacityOutOfRange cfg.memCapacity)
  else if cfg.memCapacity < program.length then .error (.programTooLong program.length)
  else .ok { State.initial cfg with imageLen := program.length, mem := Memory.load 0 program [] }

end Sys2Proof.Machine
end

