-- ==== Sys2Proof/Machine/Operands.lean ====
section
/-! DEFINITION. The operand forms of the instruction set: a source register, the sign-extended immediate, and the
destination register (spec 30_encoding.md R64, R67; 10_state.md R23, R25). There is no addressing mode (R121). -/

namespace Sys2Proof.Machine

/-- A source register operand: the value held before the instruction writes (R21, R23). -/
def srcReg (s : State) (r : RegIndex) : Word := rfRead s r

/-- The immediate operand, which decoding has sign-extended; it is neither scaled nor shifted (R64). -/
def srcImm (imm : Word) : Word := imm

/-- The destination register operand: the one write of an instruction, guarded (R22, R23). -/
def writeDest (s : State) (rd : RegIndex) (v : Word) : State := rfWrite s rd v

end Sys2Proof.Machine
end

