-- ==== Sys2Proof/Machine/IntegerArithmetic.lean ====
section
/-! DEFINITION. The meanings of ADDI and ADD (spec 41_integer_arithmetic.md R100, R101): the register-state transition
of the execute engine (R85). The fetch unit has advanced pc before; no meaning here touches it. -/

namespace Sys2Proof.Machine

/-- ADDI (R100): x[rd] <- (x[rs1] + imm) mod 2^32. -/
def execAddi (rd rs1 : RegIndex) (imm : Word) (s : State) : Host.Outcome State Fault Refusal :=
  .next (writeDest s rd (wrapAdd (srcReg s rs1) (srcImm imm)))

/-- ADD (R101): x[rd] <- (x[rs1] + x[rs2]) mod 2^32. -/
def execAdd (rd rs1 rs2 : RegIndex) (s : State) : Host.Outcome State Fault Refusal :=
  .next (writeDest s rd (wrapAdd (srcReg s rs1) (srcReg s rs2)))

end Sys2Proof.Machine
end

