-- ==== Sys2Proof/Machine/Dispatch.lean ====
section
/-! DEFINITION. The execute engine's dispatch, one arm per constructor of Instr (spec 40_execution_cycle.md R85). -/

namespace Sys2Proof.Machine

def exec (i : Instr) (s : State) : Host.Outcome State Fault Refusal :=
  match i with
  | .addi rd rs1 imm => Sys2Proof.Machine.execAddi rd rs1 imm s
  | .add rd rs1 rs2 => Sys2Proof.Machine.execAdd rd rs1 rs2 s

end Sys2Proof.Machine
end

