-- ==== Sys2Proof/Machine/Step.lean ====
section
/-! DEFINITION. One step of the core (spec 40_execution_cycle.md R80; the order of the checks is 60_exceptions.md R136). -/

namespace Sys2Proof.Machine

/-- Running test, fetch, advance pc, decode, execute (R80). -/
def step (s : State) : Host.Outcome State Fault Refusal :=
  match s.status with
  | .faulted e => .fault (.faulted e)
  | .halted => .fault .halted
  | .running =>
    match fetch s with
    | .refused r => .refused r
    | .err e => .next (raise e s)
    | .ok w =>
      match decode w with
      | .error u => .next (raise (unsupportedRecord u s.pc) (advancePc s))
      | .ok i => exec i (advancePc s)

/-- The address at which `withFetchWord` places its word: pc, with its two low bits cleared. In every state a run
reaches that is pc itself (R27). -/
def placeAddress (s : State) : Word := s.pc &&& ~~~3#32

/-- The state with a word placed where the next step fetches: its four bytes stand in the image at pc, the image
reaches at least to the word's end, and no error is recorded, so that the core is Running (assumption 3). -/
def State.withFetchWord (s : State) (nbits w : Nat) : State :=
  { s with
    pc := placeAddress s
    imageLen := max s.imageLen ((placeAddress s).toNat + 4)
    mem := Memory.load (placeAddress s).toNat (bytesOfWord (tableWord nbits w)) s.mem
    error := none }

end Sys2Proof.Machine
end

