-- ==== Sys2Proof/Machine/Assembler.lean ====
section
/-! DEFINITION. The assembler forms the spec uses for the two instructions and its three pseudo-instructions
(spec 30_encoding.md R71, R72; decision D11). No meaning of an instruction depends on this file. -/

namespace Sys2Proof.Machine

/-- One line of assembler (R71, R72). An immediate is an integer, whichever base it is written in. -/
inductive AsmLine where
  | addi (rd rs1 : RegIndex) (imm : Int)
  | add (rd rs1 rs2 : RegIndex)
  | nop
  | mv (rd rs : RegIndex)
  | li (rd : RegIndex) (imm : Int)
  deriving DecidableEq, Repr

/-- `addi rd, rs1, imm`: none when imm is outside −2048..2047 (R71). -/
def assembleAddi (rd rs1 : RegIndex) (imm : Int) : Option Instr :=
  if -2048 ≤ imm ∧ imm ≤ 2047 then some (.addi rd rs1 (BitVec.ofInt 32 imm)) else none

/-- The one instruction a line stands for (R71, R72); none where R72 has no one-word expansion. -/
def assemble : AsmLine → Option Instr
  | .addi rd rs1 imm => assembleAddi rd rs1 imm
  | .add rd rs1 rs2 => some (.add rd rs1 rs2)
  | .nop => assembleAddi 0#5 0#5 0
  | .mv rd rs => assembleAddi rd rs 0
  | .li rd imm => assembleAddi rd 0#5 imm

/-- A register's name, x0 .. x31 (R71). -/
def regName (r : RegIndex) : String := "x" ++ toString r.toNat

/-- The text of a line, its immediate in decimal (R71, R72). -/
def render : AsmLine → String
  | .addi rd rs1 imm => "addi " ++ regName rd ++ ", " ++ regName rs1 ++ ", " ++ toString imm
  | .add rd rs1 rs2 => "add " ++ regName rd ++ ", " ++ regName rs1 ++ ", " ++ regName rs2
  | .nop => "nop"
  | .mv rd rs => "mv " ++ regName rd ++ ", " ++ regName rs
  | .li rd imm => "li " ++ regName rd ++ ", " ++ toString imm

end Sys2Proof.Machine
end

