-- ==== Sys2Proof/Machine/RunLoop.lean ====
section
/-! DEFINITION. The run loop and what a finished run shows (spec 40_execution_cycle.md R84, R88). -/

namespace Sys2Proof.Machine

/-- What the run loop returns to its caller (R84). -/
inductive RunResult where
  /-- Halted: Ok(state). -/
  | ok (s : State)
  /-- Faulted(e): Err(e), the state at the error still readable. -/
  | err (e : ErrorRecord) (s : State)
  /-- A read the spec refuses (R44); no run from a construction ends so. -/
  | refused (r : Refusal)
  /-- The bound on the number of steps was reached while Running. -/
  | unfinished (s : State)
  deriving DecidableEq, Repr

/-- Repeats `step` until the core is Halted or Faulted (R84), for at most the given number of steps. R87 says which
number is enough. -/
def runLoop (bound : Nat) (s : State) : RunResult :=
  match s.status with
  | .halted => .ok s
  | .faulted e => .err e s
  | .running =>
    match bound with
    | 0 => .unfinished s
    | n + 1 =>
      match step s with
      | .next t => runLoop n t
      | .refused r => .refused r
      | .fault .halted => .ok s
      | .fault (.faulted e) => .err e s

/-- The whole run of a state, with R87's bound on its steps. -/
def run (s : State) : RunResult := runLoop (s.imageLen / 4 + 1) s

/-- The 32 register values as the read port gives them (R88, R143). -/
def registerValues (s : State) : List Word := (List.range 32).map (fun k => rfRead s (BitVec.ofNat 5 k))

/-- What can be observed at the end of a run (R88). -/
structure Observation where
  /-- Ok, or Err(e) with e's fields. -/
  outcome : Except ErrorRecord Unit
  registers : List Word
  pc : Word

/-- The observation a finished run allows; none while it is not finished, or where it was refused (R88). -/
def observe : RunResult → Option Observation
  | .ok s => some { outcome := .ok (), registers := registerValues s, pc := s.pc }
  | .err e s => some { outcome := .error e, registers := registerValues s, pc := s.pc }
  | .refused _ => none
  | .unfinished _ => none

end Sys2Proof.Machine
end

