-- ==== Sys2Proof/Safety.lean ====
section
/-! DEFINITION. What holds in every state a run reaches (spec 10_state.md R27, R28, R30; 20_memory.md R40; 60_exceptions.md
R131-R134), what an instruction's frame is, and how a run may end (40_execution_cycle.md R84, R87). -/

namespace Sys2Proof.Machine

/-- Everything but the register file is the same, memory told byte by byte as well as as data. -/
structure SameButRegisters (s t : State) : Prop where
  pc : t.pc = s.pc
  imageLen : t.imageLen = s.imageLen
  mem : t.mem = s.mem
  bytes : ∀ a : Nat, readByte t a = readByte s a
  error : t.error = s.error

/-- Every register but one reads as before. -/
def RegistersSameBut (rd : RegIndex) (s t : State) : Prop := ∀ j : RegIndex, j ≠ rd → rfRead t j = rfRead s j

/-- Every register reads as before. -/
def SameRegisters (s t : State) : Prop := ∀ j : RegIndex, rfRead t j = rfRead s j

/-- What a guarded write leaves in its register: nothing for x0, which reads zero, and the value otherwise (R21, R22). -/
def destValue (rd : RegIndex) (v : Word) : Word := if rd = 0#5 then 0#32 else v

/-- The recorded error describes the state it left: pc and the fetch that failed (R131, R132, R134). -/
def ErrorDescribesState (s : State) : Prop :=
  match s.error with
  | none => True
  | some (.outOfBoundsFetch a) => a = s.pc ∧ s.pc.toNat < s.imageLen ∧ s.imageLen < s.pc.toNat + 4
  | some (.unsupportedInstruction w opcode funct3 a) =>
    s.pc = a + 4#32 ∧ readWord s a = .ok w ∧ decode w = .error { word := w, opcode := opcode, funct3 := funct3 }

/-- The invariant of the core constructed with a given configuration. -/
structure Inv (cfg : Config) (s : State) : Prop where
  /-- 1 ≤ MEM_CAPACITY ≤ 2^32 − 1 (R7). -/
  capacity : cfg.Valid
  /-- IMAGE_LEN ≤ MEM_CAPACITY (R8). -/
  imageFits : s.imageLen ≤ cfg.memCapacity
  /-- pc is a multiple of 4 (R27). -/
  pcAligned : s.pc.toNat % 4 = 0
  /-- pc ≤ IMAGE_LEN (R28). -/
  pcInImage : s.pc.toNat ≤ s.imageLen
  /-- The storage of x0 holds 0 (R22, R34). -/
  x0Stored : s.xStore[0] = 0#32
  /-- The image is in canonical form. -/
  memCanonical : Memory.wf s.mem
  /-- No byte is listed at or above IMAGE_LEN (R40). -/
  memInImage : ∀ c ∈ s.mem, c.1 < s.imageLen
  errorDescribes : ErrorDescribesState s

/-- A run that has ended as R84 lets it end: Ok or Err(e). -/
def RunResult.Ended : RunResult → Prop
  | .ok _ => True
  | .err _ _ => True
  | .refused _ => False
  | .unfinished _ => False

/-- The state a run result shows, where it shows one. -/
def RunResult.state? : RunResult → Option State
  | .ok s => some s
  | .err _ s => some s
  | .refused _ => none
  | .unfinished s => some s

/-- Every aligned word of the image from pc on is an ADDI or ADD word (R163). -/
def ImageDecodesFrom (s : State) : Prop :=
  ∀ a : Word, a.toNat % 4 = 0 → s.pc.toNat ≤ a.toNat → a.toNat < s.imageLen →
    ∃ w i, readWord s a = .ok w ∧ decode w = .ok i

end Sys2Proof.Machine
end

