-- ==== Sys2Proof/Certificates/Slice0/Obligations.lean ====
section
/-! DEFINITION. The statements for the provers. Each docstring names the rule of spec/ it formalises; where a clause rests
on a decision the spec marks as its own (Dn of spec/92_eei_decisions.md) or on a choice of the model (an assumption of
notes/assumptions/), the docstring says so. -/

open Sys2Proof Sys2Proof.Machine

/-! ## Encoding and decoding -/

/-- Decoding the word of a well-formed instruction gives it back, every field at every value (R62, R63, R66). The field
positions are decision D5's (assumption 6), ADD's funct3 and funct7 values D4's (assumption 7). -/
def Obligations.DecodeOfEncodeIsTheInstruction : Prop :=
  ∀ i : Instr, i.wellFormed = true → decode (encode i) = .ok i

/-- A word that decodes is the word of the instruction it decodes to, which is well-formed: each instruction has one
word, and no bit of a word that decodes is ignored (R66). The field positions are decision D5's (assumption 6), ADD's
funct3 and funct7 values D4's (assumption 7). -/
def Obligations.EncodeOfDecodeIsTheWord : Prop :=
  ∀ (w : Word) (i : Instr), decode w = .ok i → encode i = w ∧ i.wellFormed = true

/-- The opcode map (R68): which words are ADDI, which are ADD, and that every other word is UnsupportedInstruction and
ends the run; the words with opcode 0x00 and 0x7F among them. ADD's row, its funct3 and funct7 values, is decision D4's
(assumption 7, PRESUMED). That the record's pc is the fetch address is decision D6's (R131; assumption 9), that the error
is recorded as Faulted D7's (R30; assumption 10). -/
def Obligations.OpcodeMapByMaskAndMatch : Prop :=
  (∀ w : Word, (∃ rd rs1 imm, decode w = .ok (.addi rd rs1 imm)) ↔ w &&& 0x0000707F#32 = 0x00000013#32) ∧
  (∀ w : Word, (∃ rd rs1 rs2, decode w = .ok (.add rd rs1 rs2)) ↔ w &&& 0xFE00707F#32 = 0x00000033#32) ∧
  (∀ w : Word, w &&& 0x0000707F#32 ≠ 0x00000013#32 → w &&& 0xFE00707F#32 ≠ 0x00000033#32 →
    ∃ u, decode w = .error u ∧ u.word = w ∧
      ∀ s : State, s.status = .running → fetch s = .ok w →
        ∃ t, step s = .next t ∧ t.status = .faulted (.unsupportedInstruction w u.opcode u.funct3 s.pc)) ∧
  (∃ u, decode 0x00000000#32 = .error u) ∧
  (∀ w : Word, opcodeField w = 0x7F#7 → ∃ u, decode w = .error u)

/-- The decoder's report of a word it rejects (R66, R131): the word, its opcode, and funct3 exactly for opcodes 0x13
and 0x33. When funct3 is present is decision D8's. -/
def Obligations.RejectedWordIsReportedWithItsFields : Prop :=
  ∀ (w : Word) (u : UnsupportedWord), decode w = .error u →
    u.word = w ∧ u.opcode = w.extractLsb 6 0 ∧
      u.funct3 = if w.extractLsb 6 0 = 0x13#7 ∨ w.extractLsb 6 0 = 0x33#7 then some (w.extractLsb 14 12) else none

/-- Words written out in the spec's decoder vectors DV1-DV13 (95_test_vectors.md) decode as listed there. The field
positions they show are decision D5's, ADD's funct3 and funct7 values D4's, the reported funct3 D8's (assumptions 6 to 8). -/
def Obligations.WrittenOutWordsDecode : Prop :=
  decode 0x00500293#32 = .ok (.addi 5 0 0x00000005) ∧
  decode 0xFFF00313#32 = .ok (.addi 6 0 0xFFFFFFFF) ∧
  decode 0x80000013#32 = .ok (.addi 0 0 0xFFFFF800) ∧
  decode 0x7FF00013#32 = .ok (.addi 0 0 0x000007FF) ∧
  decode 0x00008013#32 = .ok (.addi 0 1 0) ∧
  decode 0x006283B3#32 = .ok (.add 7 5 6) ∧
  decode 0x01FF8FB3#32 = .ok (.add 31 31 31) ∧
  decode 0x40628333#32 = .error { word := 0x40628333, opcode := 0x33, funct3 := some 0 } ∧
  decode 0x0062C3B3#32 = .error { word := 0x0062C3B3, opcode := 0x33, funct3 := some 4 } ∧
  decode 0x00502293#32 = .error { word := 0x00502293, opcode := 0x13, funct3 := some 2 }

/-- R11, whole, at every width the two extensions are defined for: zero extension keeps the number; the low N bits of
sext_N(v) are v and every higher bit is v's top bit; and R11's two examples. -/
def Obligations.SignExtensionBitByBit : Prop :=
  (∀ (n : Nat), n ≤ 32 → ∀ v : BitVec n, (zext v).toNat = v.toNat) ∧
  (∀ (n : Nat), 0 < n → n ≤ 32 → ∀ v : BitVec n, ∀ i : Nat, i < 32 →
    (sext v).getLsbD i = if i < n then v.getLsbD i else v.getLsbD (n - 1)) ∧
  sext 0x800#12 = 0xFFFFF800#32 ∧ sext 0x7FF#12 = 0x000007FF#32

/-- The immediate of a word that decodes to ADDI (R64) is its field [31:20] sign-extended, neither scaled nor shifted, so a
value from −2048 to +2047; the register indices are fields as they stand; and R64's four examples. Where the fields rd and
rs1 lie is decision D5's (assumption 6, PRESUMED). -/
def Obligations.AddiImmediateIsTheSignedField : Prop :=
  (∀ (w : Word) (rd rs1 : RegIndex) (imm : Word), decode w = .ok (.addi rd rs1 imm) →
    imm = sext (w.extractLsb 31 20 : BitVec 12) ∧ imm.toInt = (w.extractLsb 31 20 : BitVec 12).toInt ∧
      -2048 ≤ imm.toInt ∧ imm.toInt ≤ 2047 ∧ rd = rdField w ∧ rs1 = rs1Field w) ∧
  sext 0x800#12 = 0xFFFFF800#32 ∧ sext 0x7FF#12 = 0x000007FF#32 ∧ sext 0xFFF#12 = 0xFFFFFFFF#32 ∧
  sext 0x000#12 = 0x00000000#32

/-- The families the hardware does not have (R70, R120-R124): their words are rejected, without funct3 unless the opcode
is one of the two that dispatch on it. The opcode values are PRESUMED by the spec (G3); ADD's funct3 and funct7 values are
decision D4's (assumption 7), when funct3 is present is D8's (assumption 8). -/
def Obligations.WordsOfAbsentFamiliesAreRejected : Prop :=
  (∀ w : Word, opcodeField w ∈ [0x6F#7, 0x67#7, 0x63#7, 0x03#7, 0x23#7, 0x73#7, 0x0F#7, 0x37#7, 0x17#7, 0x2F#7, 0x07#7,
      0x27#7, 0x43#7, 0x47#7, 0x4B#7, 0x4F#7, 0x53#7, 0x57#7] →
    decode w = .error { word := w, opcode := opcodeField w, funct3 := none }) ∧
  (∀ w : Word, (w.extractLsb 1 0 : BitVec 2) ≠ 0b11#2 →
    decode w = .error { word := w, opcode := opcodeField w, funct3 := none }) ∧
  (∀ w : Word, opcodeField w = 0x13#7 → funct3Field w ≠ 0b000#3 →
    decode w = .error { word := w, opcode := 0x13#7, funct3 := some (funct3Field w) }) ∧
  (∀ w : Word, opcodeField w = 0x33#7 → funct3Field w ≠ 0b000#3 ∨ funct7Field w ≠ 0b0000000#7 →
    decode w = .error { word := w, opcode := 0x33#7, funct3 := some (funct3Field w) })

/-- The words of R72's pseudo-instructions, and that `li` of a value outside −2048..2047 has none. The
pseudo-instructions are decision D11's. -/
def Obligations.PseudoInstructionsAreTheseWords : Prop :=
  (assemble .nop).map encode = some 0x00000013#32 ∧
  (∀ rd rs : RegIndex, (assemble (.mv rd rs)).map encode = some (0x00000013#32 ||| zext rd <<< 7 ||| zext rs <<< 15)) ∧
  (∀ (rd : RegIndex) (imm : Int), -2048 ≤ imm → imm ≤ 2047 → (assemble (.li rd imm)).map encode =
    some (0x00000013#32 ||| zext rd <<< 7 ||| (BitVec.ofInt 32 imm &&& 0xFFF#32) <<< 20)) ∧
  (∀ (rd : RegIndex) (imm : Int), imm < -2048 ∨ 2047 < imm → assemble (.li rd imm) = none)

/-! ## Registers -/

/-- The read port (R21): x0 reads as zero whatever its storage holds, every other register as stored. That the read
itself enforces it is decision D10's. -/
def Obligations.X0ReadsZeroWhateverItsStorage : Prop :=
  ∀ s : State, rfRead s 0#5 = 0#32 ∧ ∀ i : RegIndex, i ≠ 0#5 → rfRead s i = s.xStore[i.toNat]'i.isLt

/-- R22, whole: a write to x0 changes no state; a write to any other register makes it read as the value and changes
nothing else; and every operation writes through this one guarded helper. -/
def Obligations.WritePortIsGuardedAndTheOnlyWriter : Prop :=
  (∀ (s : State) (v : Word), rfWrite s 0#5 v = s) ∧
  (∀ (s : State) (i : RegIndex) (v : Word), i ≠ 0#5 →
    rfRead (rfWrite s i v) i = v ∧ RegistersSameBut i s (rfWrite s i v) ∧ SameButRegisters s (rfWrite s i v)) ∧
  (∀ (i : Instr) (s t : State), exec i s = .next t → ∃ rd v, t = rfWrite s rd v)

/-- R23, whole: an instruction whose destination is also a source computes from the values held before it, and an
instruction changes at most one register. -/
def Obligations.SourcesAreReadBeforeTheDestinationIsWritten : Prop :=
  (∀ (s : State) (rd rs1 rs2 : RegIndex), ∃ t, exec (.add rd rs1 rs2) s = .next t ∧
    rfRead t rd = destValue rd (rfRead s rs1 + rfRead s rs2) ∧ RegistersSameBut rd s t) ∧
  (∀ (s : State) (rd : RegIndex), ∃ t, exec (.add rd rd rd) s = .next t ∧
    rfRead t rd = destValue rd (rfRead s rd + rfRead s rd)) ∧
  (∀ (s : State) (rd rs1 : RegIndex) (imm : Word), ∃ t, exec (.addi rd rs1 imm) s = .next t ∧
    rfRead t rd = destValue rd (rfRead s rs1 + imm) ∧ RegistersSameBut rd s t) ∧
  (∀ (s : State) (rd : RegIndex) (imm : Word), ∃ t, exec (.addi rd rd imm) s = .next t ∧
    rfRead t rd = destValue rd (rfRead s rd + imm))

/-- No program can tell what the storage of x0 holds (decision D10): two states that differ in it only take the same
kind of step, to states that again read alike. -/
def Obligations.X0StorageIsUnobservable : Prop :=
  ∀ (s : State) (v : Word) (t : State), step s = .next t →
    ∃ t', step { s with xStore := s.xStore.set 0 v } = .next t' ∧ SameRegisters t t' ∧ SameButRegisters t t'

/-! ## The two instructions -/

/-- ADDI (R100, pseudocode and corner cases): it always completes; x[rd] becomes (x[rs1] + imm) mod 2^32 from the values
before, or nothing is written when rd = 0; every other register, pc, the error status and every byte of memory stay. -/
def Obligations.AddiEffectAndFrame : Prop :=
  ∀ (rd rs1 : RegIndex) (imm : Word) (s : State), ∃ t, exec (.addi rd rs1 imm) s = .next t ∧
    (rfRead t rd).toNat = (if rd = 0#5 then 0 else ((rfRead s rs1).toNat + imm.toNat) % 2 ^ 32) ∧
    RegistersSameBut rd s t ∧ SameButRegisters s t

/-- ADD (R101, pseudocode and corner cases): it always completes; x[rd] becomes (x[rs1] + x[rs2]) mod 2^32 from the
values before, or nothing is written when rd = 0; every other register, pc, the error status and every byte of memory
stay. -/
def Obligations.AddEffectAndFrame : Prop :=
  ∀ (rd rs1 rs2 : RegIndex) (s : State), ∃ t, exec (.add rd rs1 rs2) s = .next t ∧
    (rfRead t rd).toNat = (if rd = 0#5 then 0 else ((rfRead s rs1).toNat + (rfRead s rs2).toNat) % 2 ^ 32) ∧
    RegistersSameBut rd s t ∧ SameButRegisters s t

/-- R85, whole: each operation is performed as R100 and R101 give it; execution answers a next state for every operation
and state; it changes at most one register, through the guarded write, and neither pc nor memory nor the error status. -/
def Obligations.ExecuteEngineIsTotalAndWritesOneRegister : Prop :=
  (∀ (i : Instr) (s : State), ∃ t rd v, exec i s = .next t ∧ t = rfWrite s rd v ∧ RegistersSameBut rd s t ∧
    SameButRegisters s t) ∧
  (∀ (rd rs1 : RegIndex) (imm : Word) (s : State),
    exec (.addi rd rs1 imm) s = .next (rfWrite s rd (rfRead s rs1 + imm))) ∧
  (∀ (rd rs1 rs2 : RegIndex) (s : State),
    exec (.add rd rs1 rs2) s = .next (rfWrite s rd (rfRead s rs1 + rfRead s rs2)))

/-- R102, whole: both instructions are the one addition (a + b) mod 2^32, the same bits whether a and b are read unsigned
or signed; no overflow is detected, recorded or a fault; every other register is untouched and pc advances by 4. -/
def Obligations.AdditionLawAtEveryStep : Prop :=
  (∀ (s : State) (w : Word) (rd rs1 rs2 : RegIndex), s.status = .running → fetch s = .ok w →
    decode w = .ok (.add rd rs1 rs2) → ∃ t, step s = .next t ∧
      rfRead t rd = destValue rd (BitVec.ofNat 32 (((rfRead s rs1).toNat + (rfRead s rs2).toNat) % 2 ^ 32)) ∧
      rfRead t rd = destValue rd (BitVec.ofInt 32 ((rfRead s rs1).toInt + (rfRead s rs2).toInt)) ∧
      RegistersSameBut rd s t ∧ SameButRegisters (advancePc s) t) ∧
  (∀ (s : State) (w : Word) (rd rs1 : RegIndex) (imm12 : BitVec 12), s.status = .running → fetch s = .ok w →
    decode w = .ok (.addi rd rs1 (sext imm12)) → ∃ t, step s = .next t ∧
      rfRead t rd = destValue rd (BitVec.ofNat 32 (((rfRead s rs1).toNat + (sext imm12).toNat) % 2 ^ 32)) ∧
      rfRead t rd = destValue rd (BitVec.ofInt 32 ((rfRead s rs1).toInt + imm12.toInt)) ∧
      RegistersSameBut rd s t ∧ SameButRegisters (advancePc s) t) ∧
  (∀ (w : Word) (rd rs1 : RegIndex) (imm : Word), decode w = .ok (.addi rd rs1 imm) →
    ∃ imm12 : BitVec 12, imm = sext imm12)

/-- A step on any word of ADDI's row of the opcode table (R100, R68), read off the word's bits: the sum, the frame and
the advance of pc; with R100's example. The positions of rd and rs1 are decision D5's. -/
def Obligations.AddiWordAtPcRuns : Prop :=
  (∀ (s : State) (w : Word), s.status = .running → fetch s = .ok w → w &&& 0x0000707F#32 = 0x00000013#32 →
    ∃ t, step s = .next t ∧
      rfRead t (w.extractLsb 11 7) =
        destValue (w.extractLsb 11 7) (rfRead s (w.extractLsb 19 15) + (w.extractLsb 31 20).signExtend 32) ∧
      RegistersSameBut (w.extractLsb 11 7) s t ∧ SameButRegisters (advancePc s) t) ∧
  (∀ s : State, s.status = .running → fetch s = .ok 0xFFF28293#32 → rfRead s 5#5 = 0x00000010#32 →
    ∃ t, step s = .next t ∧ rfRead t 5#5 = 0x0000000F#32)

/-- A step on any word of ADD's row of the opcode table (R101, R68), read off the word's bits: the sum, the frame and the
advance of pc; with R101's example. The positions of rd, rs1 and rs2 are decision D5's, the row's funct3 and funct7
values D4's. -/
def Obligations.AddWordAtPcRuns : Prop :=
  (∀ (s : State) (w : Word), s.status = .running → fetch s = .ok w → w &&& 0xFE00707F#32 = 0x00000033#32 →
    ∃ t, step s = .next t ∧
      rfRead t (w.extractLsb 11 7) =
        destValue (w.extractLsb 11 7) (rfRead s (w.extractLsb 19 15) + rfRead s (w.extractLsb 24 20)) ∧
      RegistersSameBut (w.extractLsb 11 7) s t ∧ SameButRegisters (advancePc s) t) ∧
  (∀ s : State, s.status = .running → fetch s = .ok 0x006283B3#32 → rfRead s 5#5 = 0x00000005#32 →
    rfRead s 6#5 = 0xFFFFFFFF#32 → ∃ t, step s = .next t ∧ rfRead t 7#5 = 0x00000004#32)

/-- R69, whole: a word of ADDI or ADD with rd = 0 decodes normally and its only effect is the pc advance; the word
0x0000_0013 is one of these, the register-immediate add with rd = 0, rs1 = 0, imm = 0. -/
def Obligations.WordsThatWriteX0OnlyAdvancePc : Prop :=
  (∀ (s : State) (w : Word) (rs1 : RegIndex) (imm : Word), s.status = .running → fetch s = .ok w →
    decode w = .ok (.addi 0#5 rs1 imm) → step s = .next { s with pc := s.pc + 4#32 }) ∧
  (∀ (s : State) (w : Word) (rs1 rs2 : RegIndex), s.status = .running → fetch s = .ok w →
    decode w = .ok (.add 0#5 rs1 rs2) → step s = .next { s with pc := s.pc + 4#32 }) ∧
  (∀ (rs1 : RegIndex) (imm : BitVec 12), ∃ w, decode w = .ok (.addi 0#5 rs1 (sext imm))) ∧
  (∀ rs1 rs2 : RegIndex, ∃ w, decode w = .ok (.add 0#5 rs1 rs2)) ∧
  decode 0x00000013#32 = .ok (.addi 0#5 0#5 0#32)

/-! ## The memory image -/

/-- R41 and R42, whole, at the addresses the spec specifies read_word for (the multiples of 4): within the image the word
is byte0 + byte1·2^8 + byte2·2^16 + byte3·2^24 of the four distinct bytes at address + 0..3; past its end the answer is
OutOfBoundsFetch with the address, the bound compared without wrap-around; and R42's example. -/
def Obligations.ReadWordIsLittleEndianWithinTheImage : Prop :=
  (∀ (s : State) (a : Word), a.toNat % 4 = 0 → a.toNat + 4 ≤ s.imageLen →
    ∃ (w : Word) (b0 b1 b2 b3 : Byte), readWord s a = .ok w ∧
      readByte s a.toNat = some b0 ∧ readByte s (a.toNat + 1) = some b1 ∧
      readByte s (a.toNat + 2) = some b2 ∧ readByte s (a.toNat + 3) = some b3 ∧
      w.toNat = b0.toNat + b1.toNat * 2 ^ 8 + b2.toNat * 2 ^ 16 + b3.toNat * 2 ^ 24) ∧
  (∀ (s : State) (a : Word), a.toNat % 4 = 0 → s.imageLen < a.toNat + 4 →
    readWord s a = .err (.outOfBoundsFetch a)) ∧
  (∀ (cfg : Config) (rest : List Byte) (s : State),
    construct cfg (0x01#8 :: 0x02#8 :: 0x03#8 :: 0x04#8 :: rest) = .ok s → readWord s 0#32 = .ok 0x04030201#32)

/-- A read at an address that is no multiple of 4 is refused, and the refusal is no error value (R44); a step whose pc is
such an address is refused with it. The refusal is decision D9's. That it comes before the test of the bound, and its
name, are the model's choice (assumption 11). -/
def Obligations.MisalignedReadIsRefused : Prop :=
  (∀ (s : State) (a : Word), a.toNat % 4 ≠ 0 → readWord s a = .refused (.misalignedRead a)) ∧
  (∀ s : State, s.status = .running → s.pc.toNat % 4 ≠ 0 → step s = .refused (.misalignedRead s.pc))

/-- Construction (R161, R34, R46): within the capacity it answers a state whose byte k is the program's byte k and that
backs no other address; x1 holds MEM_CAPACITY, every other register 0; pc is 0; no error; the status as R30 gives it.
IMAGE_LEN is decision D2's, x1 D15's, the other registers D17's. -/
def Obligations.ConstructionLoadsTheProgramVerbatim : Prop :=
  ∀ (cfg : Config) (program : List Byte), cfg.Valid → program.length ≤ cfg.memCapacity →
    ∃ s, construct cfg program = .ok s ∧ s.imageLen = program.length ∧ (∀ k : Nat, readByte s k = program[k]?) ∧
      (rfRead s 1#5).toNat = cfg.memCapacity ∧ (∀ i : RegIndex, i ≠ 1#5 → rfRead s i = 0#32) ∧
      s.pc = 0#32 ∧ s.error = none ∧ s.status = (if 0 < program.length then .running else .halted)

/-- R162: after construction the first word fetched is at address 0, the program's bytes 0..3 little-endian; the core has
no mode and no mask to start in. -/
def Obligations.FirstFetchIsTheProgramsFirstWord : Prop :=
  ∀ (cfg : Config) (b0 b1 b2 b3 : Byte) (rest : List Byte) (s : State),
    construct cfg (b0 :: b1 :: b2 :: b3 :: rest) = .ok s →
      s.pc = 0#32 ∧ s.status = .running ∧ ∃ w, fetch s = .ok w ∧
        w.toNat = b0.toNat + b1.toNat * 2 ^ 8 + b2.toNat * 2 ^ 16 + b3.toNat * 2 ^ 24

/-- What construction refuses. That a program longer than the capacity is refused is R47's, on decision D3. The rest is the
MODEL'S CHOICE (assumption 13): that a capacity outside 1..2^32−1, which R7 only states as a constraint, is a refused
construction; that it is tested first, so that clause 1 holds for an over-long program too; and the two refusals' names. -/
def Obligations.ConstructionRefusesWhatDoesNotFit : Prop :=
  (∀ (cfg : Config) (program : List Byte), ¬ cfg.Valid →
    construct cfg program = .error (.capacityOutOfRange cfg.memCapacity)) ∧
  (∀ (cfg : Config) (program : List Byte), cfg.Valid → cfg.memCapacity < program.length →
    construct cfg program = .error (.programTooLong program.length))

/-- R164, whole, for every capacity: the empty program is Halted at reset, and the run loop takes no step and returns Ok
with pc = 0, x1 = MEM_CAPACITY and every other register 0. -/
def Obligations.EmptyProgramHaltsAtReset : Prop :=
  ∀ cfg : Config, cfg.Valid → ∃ s, construct cfg [] = .ok s ∧ s.status = .halted ∧
    (∀ n : Nat, runLoop n s = .ok s) ∧ s.pc = 0#32 ∧ (rfRead s 1#5).toNat = cfg.memCapacity ∧
    ∀ i : RegIndex, i ≠ 1#5 → rfRead s i = 0#32

/-- The model's reset is the construction of the empty program under R7's default capacity. Which program and capacity
stand for "reset" is the model's choice (assumption 2). -/
def Obligations.ResetIsTheDefaultConstructionOfNoProgram : Prop :=
  construct Config.default [] = .ok State.reset

/-- No step writes memory (R49, R51): IMAGE_LEN and every byte of the address space are as before, error entry
included, so every word reads as before. -/
def Obligations.NoStepWritesMemory : Prop :=
  ∀ s t : State, step s = .next t →
    t.imageLen = s.imageLen ∧ (∀ a : Nat, readByte t a = readByte s a) ∧ ∀ a : Word, readWord t a = readWord s a

/-- The canonical form does its work: two memories in it that read alike at every address are the same data. This is
about the model's representation (assumption 4), not a rule of the spec. -/
def Obligations.CanonicalMemoriesThatReadAlikeAreEqual : Prop :=
  ∀ m m' : Memory, Memory.wf m → Memory.wf m' → (∀ a : Nat, Memory.read m a = Memory.read m' a) → m = m'

/-! ## One step -/

/-- When the four bytes at pc decode to an instruction, step is the execution of that instruction at the state with pc
advanced by 4 (R80, R82). -/
def Obligations.StepRunsTheDecodedInstruction : Prop :=
  ∀ (s : State) (b0 b1 b2 b3 : Byte) (i : Instr), s.error = none → s.pc.toNat % 4 = 0 →
    readByte s s.pc.toNat = some b0 → readByte s (s.pc.toNat + 1) = some b1 →
    readByte s (s.pc.toNat + 2) = some b2 → readByte s (s.pc.toNat + 3) = some b3 →
    decode (wordOfBytes b0 b1 b2 b3) = .ok i → step s = exec i { s with pc := s.pc + 4#32 }

/-- A word placed by withFetchWord is what the next step runs, from every state; where pc is aligned nothing but the
word's bytes, the image's end and the error status has changed (the model's loader, assumption 3). -/
def Obligations.PlacedWordRunsNext : Prop :=
  (∀ (s : State) (w : Nat) (i : Instr), decodeTableWord 32 w = some i →
    step (s.withFetchWord 32 w) = exec i (advancePc (s.withFetchWord 32 w))) ∧
  (∀ (s : State) (w : Nat), s.pc.toNat % 4 = 0 → (s.withFetchWord 32 w).pc = s.pc ∧
    SameRegisters s (s.withFetchWord 32 w) ∧
    ∀ a : Nat, a < s.pc.toNat ∨ s.pc.toNat + 4 ≤ a → a < s.imageLen →
      readByte (s.withFetchWord 32 w) a = readByte s a)

/-- R29, whole: after reset, pc changes by the fetch unit's pc + 4 once per successful fetch and by nothing else; no
instruction writes it; reset writes 0. -/
def Obligations.OnlyTheFetchUnitAndResetWritePc : Prop :=
  (∀ (s t : State) (w : Word), step s = .next t → fetch s = .ok w → t.pc = s.pc + 4#32) ∧
  (∀ s t : State, step s = .next t → (∀ w, fetch s ≠ .ok w) → t.pc = s.pc) ∧
  (∀ (i : Instr) (s t : State), exec i s = .next t → t.pc = s.pc) ∧
  (∀ (cfg : Config) (program : List Byte) (s : State), construct cfg program = .ok s → s.pc = 0#32)

/-- No hazard (R86, R165): the value an instruction writes is what the very next instruction reads, for ADDI after ADDI
and ADD after ADD; pc has then advanced by 8. -/
def Obligations.NextInstructionReadsTheValueJustWritten : Prop :=
  (∀ (s t : State) (w w' : Word) (rd rs1 : RegIndex) (a b : Word), s.status = .running → fetch s = .ok w →
    decode w = .ok (.addi rd rs1 a) → step s = .next t → t.status = .running → fetch t = .ok w' →
    decode w' = .ok (.addi rd rd b) →
    ∃ t', step t = .next t' ∧ rfRead t' rd = destValue rd (rfRead s rs1 + a + b) ∧ t'.pc = s.pc + 8#32) ∧
  (∀ (s t : State) (w w' : Word) (rd rs1 rs2 : RegIndex), s.status = .running → fetch s = .ok w →
    decode w = .ok (.add rd rs1 rs2) → step s = .next t → t.status = .running → fetch t = .ok w' →
    decode w' = .ok (.add rd rd rd) →
    ∃ t', step t = .next t' ∧
      rfRead t' rd = destValue rd ((rfRead s rs1 + rfRead s rs2) + (rfRead s rs1 + rfRead s rs2)) ∧
      t'.pc = s.pc + 8#32)

/-- A word that does not decode (R131, R134): the step takes the error's entry, recording the word, its opcode, funct3 and
its fetch address, with pc at the fetch address + 4 and everything else as before. The two pc values are decision D6's
(assumption 9), that nothing else changes D7's (assumption 10), when funct3 is present D8's (assumption 8). -/
def Obligations.UndecodableWordEntersFaulted : Prop :=
  ∀ (s : State) (w : Word), s.status = .running → fetch s = .ok w → (∀ i, decode w ≠ .ok i) →
    ∃ t, step s = .next t ∧
      t.status = .faulted (.unsupportedInstruction w (w.extractLsb 6 0)
        (if w.extractLsb 6 0 = 0x13#7 ∨ w.extractLsb 6 0 = 0x33#7 then some (w.extractLsb 14 12) else none) s.pc) ∧
      t.pc = s.pc + 4#32 ∧ t.xStore = s.xStore ∧ t.mem = s.mem ∧ t.imageLen = s.imageLen

/-- OutOfBoundsFetch (R132): a Running core (its pc aligned, as in every run) whose word does not fit the image reports it
with pc, the fetch address; a step reports it in no other case; and pc ≥ IMAGE_LEN is Halted instead. That pc is left
unchanged is decision D6's (R81; assumption 9), that nothing but the error is written D7's (R134; assumption 10). -/
def Obligations.PartialWordIsOutOfBoundsFetch : Prop :=
  (∀ s : State, s.error = none → s.pc.toNat % 4 = 0 → s.pc.toNat < s.imageLen → s.imageLen < s.pc.toNat + 4 →
    step s = .next { s with error := some (.outOfBoundsFetch s.pc) }) ∧
  (∀ (s t : State) (a : Word), step s = .next t → t.error = some (.outOfBoundsFetch a) →
    a = s.pc ∧ s.pc.toNat < s.imageLen ∧ s.imageLen < s.pc.toNat + 4) ∧
  (∀ s : State, s.error = none → s.imageLen ≤ s.pc.toNat → s.status = .halted)

/-- Errors are precise (R134): a step that reports an error writes no register and no memory, and leaves pc unchanged for
OutOfBoundsFetch, at the fetch address + 4 for UnsupportedInstruction. Precision is decision D7's, the pc values D6's. -/
def Obligations.ErrorEntryIsPrecise : Prop :=
  ∀ (s t : State) (e : ErrorRecord), step s = .next t → t.status = .faulted e →
    t.xStore = s.xStore ∧ t.mem = s.mem ∧ t.imageLen = s.imageLen ∧
    ((e = .outOfBoundsFetch s.pc ∧ t.pc = s.pc) ∨
     (∃ w opcode funct3, e = .unsupportedInstruction w opcode funct3 s.pc ∧ fetch s = .ok w ∧ t.pc = s.pc + 4#32))

/-- Faulted is terminal (R135): no step leaves it, and the run loop returns its error with the state at the error.
That it is sticky is decision D7's; that step answers a fault there is the model's (assumption 1). -/
def Obligations.FaultedIsTerminal : Prop :=
  ∀ (s : State) (e : ErrorRecord), s.status = .faulted e →
    step s = .fault (.faulted e) ∧ ∀ n : Nat, runLoop n s = .err e s

/-- Halted (R83): the core is Halted when it is not Faulted and pc ≥ IMAGE_LEN, pc = IMAGE_LEN included; a Halted core
takes no step, and the run loop returns Ok; with IMAGE_LEN = 0 it is Halted at reset; and a step enters Halted only by
exhausting the image. That "no step" is told as a fault named `halted` is the model's choice (assumption 1). -/
def Obligations.HaltedWhenThePcLeavesTheImage : Prop :=
  (∀ s : State, s.status = .halted ↔ (∀ e, s.status ≠ .faulted e) ∧ s.imageLen ≤ s.pc.toNat) ∧
  (∀ s : State, s.status = .halted → step s = .fault .halted ∧ ∀ n : Nat, runLoop n s = .ok s) ∧
  (∀ (cfg : Config) (s : State), construct cfg [] = .ok s → s.status = .halted) ∧
  (∀ s t : State, step s = .next t → t.status = .halted → t.imageLen ≤ t.pc.toNat ∧ t.pc = s.pc + 4#32)

/-- The run status is R30's function of the recorded error, pc and IMAGE_LEN. That Faulted is recorded is decision D7's. -/
def Obligations.StatusIsAFunctionOfErrorPcAndLength : Prop :=
  (∀ (s : State) (e : ErrorRecord), s.error = some e → s.status = .faulted e) ∧
  (∀ s : State, s.error = none → s.imageLen ≤ s.pc.toNat → s.status = .halted) ∧
  (∀ s : State, s.error = none → s.pc.toNat < s.imageLen → s.status = .running)

/-- Where a step answers no next state: a Halted core, a Faulted core, and a fetch at a misaligned pc; no instruction
stops a run (R80, R136). The misaligned fetch's refusal is decision D9's; that the first two answer a fault, under these
names, is the model's choice (assumption 1), and so is the refusal's name (assumption 11). -/
def Obligations.StepStopsOnlyWhereThereIsNoStep : Prop :=
  (∀ (s : State) (f : Fault), step s = .fault f →
    (f = .halted ∧ s.status = .halted) ∨ ∃ e, f = .faulted e ∧ s.status = .faulted e) ∧
  (∀ (s : State) (r : Refusal), step s = .refused r →
    s.status = .running ∧ s.pc.toNat % 4 ≠ 0 ∧ r = .misalignedRead s.pc)

/-- Control flows straight through the image (R120): which step is taken, the pc and the error after it depend on no
register. -/
def Obligations.ControlFlowIgnoresRegisters : Prop :=
  ∀ (s t : State) (xs : Vector Word 32), step s = .next t →
    ∃ t', step { s with xStore := xs } = .next t' ∧ SameButRegisters t t'

/-! ## Invariant and whole runs -/

/-- The invariant holds at the model's reset (R34), which is the empty program's under the default capacity
(assumption 2). That memory is canonical is about the model's representation (assumption 4). -/
def Obligations.InvariantHoldsAtReset : Prop := Inv Config.default State.reset

/-- The invariant holds after every construction that is not refused (R27, R28, R30, R161): the image lies within a capacity
of R7's range, pc is a multiple of 4 and within the image, the storage of x0 holds 0, the listed bytes lie inside the
image, and a recorded error, if there is one, describes the state. The capacity's bound on the image is decision D3's; that
an out-of-range capacity is a refused construction, so that no state has one, is the model's choice (assumption 13), and
so is the canonical form of memory (assumption 4). That no error is recorded is ConstructionLoadsTheProgramVerbatim's. -/
def Obligations.ConstructionEstablishesTheInvariant : Prop :=
  ∀ (cfg : Config) (program : List Byte) (s : State), construct cfg program = .ok s → Inv cfg s

/-- Every step keeps the invariant (R27, R28, R30, R134): pc stays a multiple of 4 and within the image, which stays within
the capacity (decision D3); x0's storage stays 0; memory stays canonical (the model's representation, assumption 4); a
recorded error describes the state it left (its pc values are decision D6's, its funct3 D8's). -/
def Obligations.StepKeepsTheInvariant : Prop :=
  ∀ (cfg : Config) (s t : State), Inv cfg s → step s = .next t → Inv cfg t

/-- Under the invariant a Running core always steps, and pc + 4 never wraps when it moves (R28, R44). -/
def Obligations.RunningCoreStepsWithoutPcWrap : Prop :=
  ∀ (cfg : Config) (s : State), Inv cfg s → s.status = .running →
    ∃ t, step s = .next t ∧ (t.pc = s.pc ∨ t.pc.toNat = s.pc.toNat + 4)

/-- The run loop (R84) repeats step while the core is Running; it returns Ok(state) when Halted and Err(e) when Faulted(e),
in either case with the state that so many steps reach; while it is unfinished the core is Running. The bound on the
number of its steps and the outcome `unfinished` are the model's choice (assumption 20): R84 has no bound. -/
def Obligations.RunLoopReturnsTheStateItReached : Prop :=
  (∀ (n : Nat) (s : State), s.status = .halted → runLoop n s = .ok s) ∧
  (∀ (n : Nat) (s : State) (e : ErrorRecord), s.status = .faulted e → runLoop n s = .err e s) ∧
  (∀ (n : Nat) (s t : State), step s = .next t → runLoop (n + 1) s = runLoop n t) ∧
  (∀ (n : Nat) (s t : State),
    (runLoop n s = .ok t → t.status = .halted ∧ ∃ k, k ≤ n ∧ Sys2Proof.core.run k s = .next t) ∧
    (∀ e, runLoop n s = .err e t → t.status = .faulted e ∧ ∃ k, k ≤ n ∧ Sys2Proof.core.run k s = .next t) ∧
    (runLoop n s = .unfinished t → t.status = .running ∧ Sys2Proof.core.run n s = .next t))

/-- What a finished run shows (R88): its outcome, the 32 register values as the read port gives them, and pc; and no run
changes the memory image. A run is told by the run loop at any bound, also one it does not finish within; that bound is
the model's choice (assumption 20). -/
def Obligations.FinishedRunShowsOutcomeRegistersAndPc : Prop :=
  (∀ s : State, ∃ o, observe (.ok s) = some o ∧ o.outcome = .ok () ∧ o.pc = s.pc ∧ o.registers.length = 32 ∧
    ∀ i : RegIndex, o.registers[i.toNat]? = some (rfRead s i)) ∧
  (∀ (e : ErrorRecord) (s : State), ∃ o, observe (.err e s) = some o ∧ o.outcome = .error e ∧ o.pc = s.pc ∧
    o.registers.length = 32 ∧ ∀ i : RegIndex, o.registers[i.toNat]? = some (rfRead s i)) ∧
  (∀ (n : Nat) (s t : State), (runLoop n s).state? = some t →
    t.imageLen = s.imageLen ∧ ∀ a : Nat, readByte t a = readByte s a)

/-- Every run ends (R87): from any state of the invariant, Halted within ⌊(IMAGE_LEN − pc) / 4⌋ steps, or Faulted within
one step more. At reset pc is 0, which gives R87's bound; so the whole run `run s` ends, refused nowhere.
That the loop takes its bound as an argument is the model's choice (assumption 20). -/
def Obligations.EveryRunEndsWithinItsBound : Prop :=
  ∀ (cfg : Config) (s : State), Inv cfg s →
    ((∃ t, runLoop ((s.imageLen - s.pc.toNat) / 4) s = .ok t) ∨
    (∃ e t, runLoop ((s.imageLen - s.pc.toNat) / 4 + 1) s = .err e t)) ∧ (run s).Ended

/-- A clean image runs to its end (R87, R163): when IMAGE_LEN is a multiple of 4 and every word from pc on is an ADDI or
ADD word, the run halts with pc = IMAGE_LEN after exactly (IMAGE_LEN − pc) / 4 steps. The bound and `unfinished` are the
model's choice (assumption 20). -/
def Obligations.CleanImageRunsToItsEnd : Prop :=
  ∀ (cfg : Config) (s : State), Inv cfg s → s.error = none → s.imageLen % 4 = 0 → ImageDecodesFrom s →
    (∃ t, runLoop ((s.imageLen - s.pc.toNat) / 4) s = .ok t ∧ t.pc.toNat = s.imageLen) ∧
    (∀ n : Nat, n < (s.imageLen - s.pc.toNat) / 4 → ∃ t, runLoop n s = .unfinished t)
end

