-- ==== Sys2Proof/Laws/Decode.lean ====
section
/-! SUPPORT. Fields, byte order and sign extension: what each helper of the decoder gives, bit by bit
(spec 00_scope.md R11, 20_memory.md R42, 30_encoding.md R61-R64). -/

namespace Sys2Proof

/-- The word put together from its own four bytes is itself (R42). -/
theorem wordOfBytes_byteOfWord (w : Word) :
    wordOfBytes (byteOfWord w 0) (byteOfWord w 1) (byteOfWord w 2) (byteOfWord w 3) = w := by
  ext i hi
  simp only [wordOfBytes, byteOfWord, zext]
  interval_cases i <;> simp

/-- A table row's word, laid out and read back, is the low 32 bits of its number. -/
theorem decodeTableWord_eq (nbits w : Nat) : decodeTableWord nbits w = (decode (tableWord nbits w)).toOption := by
  simp only [decodeTableWord, wordOfBytes_byteOfWord]

theorem tableWord_32 (w : Word) : tableWord 32 w.toNat = w := by
  apply BitVec.eq_of_toNat_eq
  simpa [tableWord] using w.isLt

section formats
variable (imm12 : BitVec 12) (rd rs1 rs2 : RegIndex) (funct3 : BitVec 3) (funct7 opcode : BitVec 7)

/-- The bits of an I-format word, field by field (R62). -/
theorem getLsbD_iFormat (i : Nat) : (iFormat imm12 rs1 funct3 rd opcode).getLsbD i =
    if i < 7 then opcode.getLsbD i else if i - 7 < 5 then rd.getLsbD (i - 7)
    else if i - 7 - 5 < 3 then funct3.getLsbD (i - 7 - 5) else if i - 7 - 5 - 3 < 5 then
      rs1.getLsbD (i - 7 - 5 - 3) else imm12.getLsbD (i - 7 - 5 - 3 - 5) := by
  simp only [iFormat, BitVec.getLsbD_cast, BitVec.getLsbD_append]

/-- The bits of an R-format word, field by field (R63). -/
theorem getLsbD_rFormat (i : Nat) : (rFormat funct7 rs2 rs1 funct3 rd opcode).getLsbD i =
    if i < 7 then opcode.getLsbD i else if i - 7 < 5 then rd.getLsbD (i - 7)
    else if i - 7 - 5 < 3 then funct3.getLsbD (i - 7 - 5) else if i - 7 - 5 - 3 < 5 then
      rs1.getLsbD (i - 7 - 5 - 3) else if i - 7 - 5 - 3 - 5 < 5 then rs2.getLsbD (i - 7 - 5 - 3 - 5)
    else funct7.getLsbD (i - 7 - 5 - 3 - 5 - 5) := by
  simp only [rFormat, BitVec.getLsbD_cast, BitVec.getLsbD_append]

@[simp] theorem opcodeField_iFormat : opcodeField (iFormat imm12 rs1 funct3 rd opcode) = opcode := by
  refine BitVec.eq_of_getLsbD_eq fun i hi => ?_
  simp only [opcodeField, BitVec.getLsbD_extractLsb, getLsbD_iFormat]
  interval_cases i <;> simp
@[simp] theorem rdField_iFormat : rdField (iFormat imm12 rs1 funct3 rd opcode) = rd := by
  refine BitVec.eq_of_getLsbD_eq fun i hi => ?_
  simp only [rdField, BitVec.getLsbD_extractLsb, getLsbD_iFormat]
  interval_cases i <;> simp
@[simp] theorem funct3Field_iFormat : funct3Field (iFormat imm12 rs1 funct3 rd opcode) = funct3 := by
  refine BitVec.eq_of_getLsbD_eq fun i hi => ?_
  simp only [funct3Field, BitVec.getLsbD_extractLsb, getLsbD_iFormat]
  interval_cases i <;> simp
@[simp] theorem rs1Field_iFormat : rs1Field (iFormat imm12 rs1 funct3 rd opcode) = rs1 := by
  refine BitVec.eq_of_getLsbD_eq fun i hi => ?_
  simp only [rs1Field, BitVec.getLsbD_extractLsb, getLsbD_iFormat]
  interval_cases i <;> simp
@[simp] theorem imm12Field_iFormat : imm12Field (iFormat imm12 rs1 funct3 rd opcode) = imm12 := by
  refine BitVec.eq_of_getLsbD_eq fun i hi => ?_
  simp only [imm12Field, BitVec.getLsbD_extractLsb, getLsbD_iFormat]
  interval_cases i <;> simp

@[simp] theorem opcodeField_rFormat : opcodeField (rFormat funct7 rs2 rs1 funct3 rd opcode) = opcode := by
  refine BitVec.eq_of_getLsbD_eq fun i hi => ?_
  simp only [opcodeField, BitVec.getLsbD_extractLsb, getLsbD_rFormat]
  interval_cases i <;> simp
@[simp] theorem rdField_rFormat : rdField (rFormat funct7 rs2 rs1 funct3 rd opcode) = rd := by
  refine BitVec.eq_of_getLsbD_eq fun i hi => ?_
  simp only [rdField, BitVec.getLsbD_extractLsb, getLsbD_rFormat]
  interval_cases i <;> simp
@[simp] theorem funct3Field_rFormat : funct3Field (rFormat funct7 rs2 rs1 funct3 rd opcode) = funct3 := by
  refine BitVec.eq_of_getLsbD_eq fun i hi => ?_
  simp only [funct3Field, BitVec.getLsbD_extractLsb, getLsbD_rFormat]
  interval_cases i <;> simp
@[simp] theorem rs1Field_rFormat : rs1Field (rFormat funct7 rs2 rs1 funct3 rd opcode) = rs1 := by
  refine BitVec.eq_of_getLsbD_eq fun i hi => ?_
  simp only [rs1Field, BitVec.getLsbD_extractLsb, getLsbD_rFormat]
  interval_cases i <;> simp
@[simp] theorem rs2Field_rFormat : rs2Field (rFormat funct7 rs2 rs1 funct3 rd opcode) = rs2 := by
  refine BitVec.eq_of_getLsbD_eq fun i hi => ?_
  simp only [rs2Field, BitVec.getLsbD_extractLsb, getLsbD_rFormat]
  interval_cases i <;> simp
@[simp] theorem funct7Field_rFormat : funct7Field (rFormat funct7 rs2 rs1 funct3 rd opcode) = funct7 := by
  refine BitVec.eq_of_getLsbD_eq fun i hi => ?_
  simp only [funct7Field, BitVec.getLsbD_extractLsb, getLsbD_rFormat]
  interval_cases i <;> simp

end formats

/-- R11's algorithm at width 12 is two's-complement sign extension. -/
theorem sext_imm12_eq_signExtend (v : BitVec 12) : sext v = v.signExtend 32 := by
  ext i hi
  unfold sext
  cases hm : v.msb <;> simp [zext, BitVec.getElem_signExtend, hm] <;>
    interval_cases i <;> simp

/-- When a word decodes to ADDI (R66). -/
theorem decode_ok_addi_iff (w : Word) (rd rs1 : RegIndex) (imm : Word) :
    decode w = .ok (.addi rd rs1 imm) ↔
      opcodeField w = 0x13#7 ∧ funct3Field w = 0b000#3 ∧
        rd = rdField w ∧ rs1 = rs1Field w ∧ imm = sext (imm12Field w) := by
  unfold decode
  by_cases h : opcodeField w = 0x13#7
  · by_cases h3 : funct3Field w = 0b000#3 <;> simp [h, h3, eq_comm]
  · by_cases h' : opcodeField w = 0x33#7
    · by_cases h3 : funct3Field w = 0b000#3 ∧ funct7Field w = 0b0000000#7 <;> simp [h', h3]
    · simp [h, h']

/-- When a word decodes to ADD (R66). -/
theorem decode_ok_add_iff (w : Word) (rd rs1 rs2 : RegIndex) :
    decode w = .ok (.add rd rs1 rs2) ↔
      opcodeField w = 0x33#7 ∧ funct3Field w = 0b000#3 ∧ funct7Field w = 0b0000000#7 ∧
        rd = rdField w ∧ rs1 = rs1Field w ∧ rs2 = rs2Field w := by
  unfold decode
  by_cases h : opcodeField w = 0x13#7
  · by_cases h3 : funct3Field w = 0b000#3 <;> simp [h, h3]
  · by_cases h' : opcodeField w = 0x33#7
    · by_cases h3 : funct3Field w = 0b000#3 <;> by_cases h7 : funct7Field w = 0b0000000#7 <;>
        simp [h', h3, h7, eq_comm]
    · simp [h, h']

end Sys2Proof
end

