-- ==== Sys2Proof/Laws/State.lean ====
section
/-! SUPPORT. One lemma per field and per update of State, so that no later proof unfolds a record update. -/

namespace Sys2Proof.Machine

section advancePc
variable (s : State)
@[simp] theorem advancePc_xStore : (advancePc s).xStore = s.xStore := rfl
@[simp] theorem advancePc_pc : (advancePc s).pc = s.pc + 4#32 := rfl
@[simp] theorem advancePc_imageLen : (advancePc s).imageLen = s.imageLen := rfl
@[simp] theorem advancePc_mem : (advancePc s).mem = s.mem := rfl
@[simp] theorem advancePc_error : (advancePc s).error = s.error := rfl
@[simp] theorem advancePc_rfRead (i : RegIndex) : rfRead (advancePc s) i = rfRead s i := rfl
@[simp] theorem advancePc_readByte (a : Nat) : readByte (advancePc s) a = readByte s a := rfl
@[simp] theorem advancePc_readWord (a : Word) : readWord (advancePc s) a = readWord s a := rfl
end advancePc

section raise
variable (e : ErrorRecord) (s : State)
@[simp] theorem raise_xStore : (raise e s).xStore = s.xStore := rfl
@[simp] theorem raise_pc : (raise e s).pc = s.pc := rfl
@[simp] theorem raise_imageLen : (raise e s).imageLen = s.imageLen := rfl
@[simp] theorem raise_mem : (raise e s).mem = s.mem := rfl
@[simp] theorem raise_error : (raise e s).error = some e := rfl
@[simp] theorem raise_status : (raise e s).status = .faulted e := rfl
@[simp] theorem raise_rfRead (i : RegIndex) : rfRead (raise e s) i = rfRead s i := rfl
@[simp] theorem raise_readByte (a : Nat) : readByte (raise e s) a = readByte s a := rfl
@[simp] theorem raise_readWord (a : Word) : readWord (raise e s) a = readWord s a := rfl
end raise

section rfWrite
variable (s : State) (i : RegIndex) (v : Word)
@[simp] theorem rfWrite_zero : rfWrite s 0#5 v = s := rfl
@[simp] theorem rfWrite_pc : (rfWrite s i v).pc = s.pc := by unfold rfWrite; split <;> rfl
@[simp] theorem rfWrite_imageLen : (rfWrite s i v).imageLen = s.imageLen := by unfold rfWrite; split <;> rfl
@[simp] theorem rfWrite_mem : (rfWrite s i v).mem = s.mem := by unfold rfWrite; split <;> rfl
@[simp] theorem rfWrite_error : (rfWrite s i v).error = s.error := by unfold rfWrite; split <;> rfl
theorem rfWrite_xStore_of_ne_zero (h : i ≠ 0#5) : (rfWrite s i v).xStore = s.xStore.set i.toNat v i.isLt := by
  simp [rfWrite, h]
@[simp] theorem rfWrite_readByte (a : Nat) : readByte (rfWrite s i v) a = readByte s a := by simp [readByte]
@[simp] theorem rfWrite_readWord (a : Word) : readWord (rfWrite s i v) a = readWord s a := by simp [readWord]
end rfWrite

section initial
variable (cfg : Config)
@[simp] theorem initial_pc : (State.initial cfg).pc = 0#32 := rfl
@[simp] theorem initial_imageLen : (State.initial cfg).imageLen = 0 := rfl
@[simp] theorem initial_mem : (State.initial cfg).mem = [] := rfl
@[simp] theorem initial_error : (State.initial cfg).error = none := rfl
end initial

end Sys2Proof.Machine
end

