-- ==== Sys2Proof/Laws/Memory.lean ====
section
/-! SUPPORT. What the memory operations do, and that each keeps the canonical form. -/

namespace Sys2Proof.Machine

theorem Memory.read_erase_self (m : Memory) (a : Nat) : Memory.read (Memory.erase m a) a = Memory.unlisted := by
  induction m with
  | nil => rfl
  | cons c m ih => by_cases h : c.1 = a <;> simp_all [Memory.erase, Memory.read]

theorem Memory.read_erase_of_ne (m : Memory) {a b : Nat} (h : b ≠ a) :
    Memory.read (Memory.erase m a) b = Memory.read m b := by
  induction m with
  | nil => rfl
  | cons c m ih =>
    by_cases hc : c.1 = a
    · have hb : ¬ c.1 = b := fun e => h (e.symm.trans hc)
      simpa [Memory.erase, Memory.read, List.filter_cons, hc, Ne.symm h] using ih
    · by_cases hb : c.1 = b <;> simp_all [Memory.erase, Memory.read]

theorem Memory.mem_erase {m : Memory} {a : Nat} {c : Host.Cell} :
    c ∈ Memory.erase m a ↔ c ∈ m ∧ c.1 ≠ a := by
  simp [Memory.erase]

theorem Memory.mem_insert {m : Memory} {a : Nat} {v : Byte} {c : Host.Cell} :
    c ∈ Memory.insert m a v ↔ c = (a, v) ∨ c ∈ m := by
  induction m with
  | nil => simp [Memory.insert]
  | cons d m ih =>
    unfold Memory.insert
    split
    · simp
    · simp only [List.mem_cons, ih]; tauto

theorem Memory.read_insert_of_ne (m : Memory) {a b : Nat} (v : Byte) (h : b ≠ a) :
    Memory.read (Memory.insert m a v) b = Memory.read m b := by
  induction m with
  | nil => simp [Memory.insert, Memory.read, Ne.symm h]
  | cons c m ih =>
    unfold Memory.insert
    split
    · simp [Memory.read, Ne.symm h]
    · simp [Memory.read, ih]

theorem Memory.read_insert_self {m : Memory} {a : Nat} (v : Byte) (h : ∀ c ∈ m, c.1 ≠ a) :
    Memory.read (Memory.insert m a v) a = v := by
  induction m with
  | nil => simp [Memory.insert, Memory.read]
  | cons c m ih =>
    unfold Memory.insert
    split
    · simp [Memory.read]
    · simpa [Memory.read, h c (by simp)] using ih fun d hd => h d (by simp [hd])

/-- A read after a write to the same address gives the byte written. -/
theorem Memory.read_write_self (m : Memory) (a : Nat) (v : Byte) : Memory.read (Memory.write m a v) a = v := by
  unfold Memory.write
  split
  · next h => rw [Memory.read_erase_self, h]
  · exact Memory.read_insert_self v fun c hc => (Memory.mem_erase.1 hc).2

/-- A write leaves every other address alone. -/
theorem Memory.read_write_of_ne (m : Memory) {a b : Nat} (v : Byte) (h : b ≠ a) :
    Memory.read (Memory.write m a v) b = Memory.read m b := by
  unfold Memory.write
  split
  · exact Memory.read_erase_of_ne m h
  · rw [Memory.read_insert_of_ne _ _ h, Memory.read_erase_of_ne m h]

theorem Memory.wf_nil : Memory.wf [] := by simp [Memory.wf]

theorem Memory.erase_wf {m : Memory} (a : Nat) (h : Memory.wf m) : Memory.wf (Memory.erase m a) :=
  ⟨h.1.filter _, fun c hc => h.2 c (Memory.mem_erase.1 hc).1⟩

theorem Memory.insert_wf {m : Memory} {a : Nat} {v : Byte} (hv : v ≠ Memory.unlisted) (h : Memory.wf m)
    (ha : ∀ c ∈ m, c.1 ≠ a) : Memory.wf (Memory.insert m a v) := by
  refine ⟨?_, fun c hc => ?_⟩
  · have hs := h.1
    clear h
    induction m with
    | nil => simp [Memory.insert]
    | cons c m ih =>
      have hc := List.pairwise_cons.1 hs
      unfold Memory.insert
      split
      · next hlt =>
        refine List.pairwise_cons.2 ⟨fun d hd => ?_, hs⟩
        rcases List.mem_cons.1 hd with rfl | hd
        · exact hlt
        · exact Nat.lt_trans hlt (hc.1 d hd)
      · next hge =>
        refine List.pairwise_cons.2 ⟨fun d hd => ?_, ih (fun d hd => ha d (by simp [hd])) hc.2⟩
        rcases Memory.mem_insert.1 hd with rfl | hd
        · have := ha c (by simp)
          show c.1 < a
          omega
        · exact hc.1 d hd
  · rcases Memory.mem_insert.1 hc with rfl | hc
    · exact hv
    · exact h.2 c hc

/-- A write keeps the canonical form. -/
theorem Memory.write_wf {m : Memory} (a : Nat) (v : Byte) (h : Memory.wf m) : Memory.wf (Memory.write m a v) := by
  unfold Memory.write
  split
  · exact Memory.erase_wf a h
  · next hv => exact Memory.insert_wf hv (Memory.erase_wf a h) fun c hc => (Memory.mem_erase.1 hc).2

/-- What a write lists is the address written and nothing that was not listed. -/
theorem Memory.mem_write {m : Memory} {a : Nat} {v : Byte} {c : Host.Cell} (h : c ∈ Memory.write m a v) :
    c.1 = a ∨ c ∈ m := by
  unfold Memory.write at h
  split at h
  · exact .inr (Memory.mem_erase.1 h).1
  · rcases Memory.mem_insert.1 h with rfl | h
    · exact .inl rfl
    · exact .inr (Memory.mem_erase.1 h).1

/-- Loading bytes keeps the canonical form. -/
theorem Memory.load_wf (a : Nat) (bs : List Byte) {m : Memory} (h : Memory.wf m) : Memory.wf (Memory.load a bs m) := by
  induction bs generalizing a m with
  | nil => exact h
  | cons b bs ih => exact ih (a + 1) (Memory.write_wf a b h)

/-- Loading bytes leaves every address below them alone. -/
theorem Memory.read_load_of_lt {a b : Nat} (bs : List Byte) (m : Memory) (h : b < a) :
    Memory.read (Memory.load a bs m) b = Memory.read m b := by
  induction bs generalizing a m with
  | nil => rfl
  | cons x bs ih =>
    show Memory.read (Memory.load (a + 1) bs (Memory.write m a x)) b = _
    rw [ih _ (by omega), Memory.read_write_of_ne _ _ (by omega)]

/-- Byte k of the bytes loaded stands at address a + k. -/
theorem Memory.read_load (a : Nat) (bs : List Byte) (m : Memory) (k : Nat) (h : k < bs.length) :
    Memory.read (Memory.load a bs m) (a + k) = bs[k] := by
  induction bs generalizing a m k with
  | nil => simp at h
  | cons x bs ih =>
    show Memory.read (Memory.load (a + 1) bs (Memory.write m a x)) (a + k) = _
    cases k with
    | zero => rw [Memory.read_load_of_lt _ _ (by omega)]; exact Memory.read_write_self m a x
    | succ k =>
      have := ih (a + 1) (Memory.write m a x) k (by simpa using h)
      simpa [Nat.add_assoc, Nat.add_comm 1 k] using this

/-- What loading lists lies among the bytes loaded, or was listed before. -/
theorem Memory.mem_load {a : Nat} {bs : List Byte} {m : Memory} {c : Host.Cell} (h : c ∈ Memory.load a bs m) :
    (a ≤ c.1 ∧ c.1 < a + bs.length) ∨ c ∈ m := by
  induction bs generalizing a m with
  | nil => exact .inr h
  | cons x bs ih =>
    rcases ih (a := a + 1) (m := Memory.write m a x) h with hc | hc
    · exact .inl ⟨by omega, by simp only [List.length_cons]; omega⟩
    · rcases Memory.mem_write hc with hc | hc
      · exact .inl ⟨by omega, by simp only [List.length_cons]; omega⟩
      · exact .inr hc

end Sys2Proof.Machine
end

