-- ==== Sys2Proof/Laws/PerInstr.lean ====
section
/-! SUPPORT. Facts told one instruction at a time: an encoded instruction lies in its own row of the opcode table
(spec 30_encoding.md R68, spec/opcode_table.json). -/

namespace Sys2Proof.Laws.RowBits

/-- The bits an instruction's row fixes are fixed so in its encoded word. -/
def Statement (i : Instr) : Prop := encode i &&& rowMask i = rowMatch i

theorem addi (rd rs1 : RegIndex) (imm : Word) : Statement (.addi rd rs1 imm) := by
  refine BitVec.eq_of_getLsbD_eq fun i hi => ?_
  simp only [encode, rowMask, rowMatch, BitVec.getLsbD_and, getLsbD_iFormat]
  interval_cases i <;> simp

theorem add (rd rs1 rs2 : RegIndex) : Statement (.add rd rs1 rs2) := by
  refine BitVec.eq_of_getLsbD_eq fun i hi => ?_
  simp only [encode, rowMask, rowMatch, BitVec.getLsbD_and, getLsbD_rFormat]
  interval_cases i <;> simp

end Sys2Proof.Laws.RowBits
end

