-- ==== Sys2Proof/Laws/Registers.lean ====
section
/-! SUPPORT. What the register ports do (spec 10_state.md R21, R22). -/

namespace Sys2Proof.Machine

theorem rfRead_of_ne_zero (s : State) {i : RegIndex} (h : i ≠ 0#5) : rfRead s i = s.xStore[i.toNat]'i.isLt := by
  simp [rfRead, h]

/-- The register written reads as the value written, unless it is x0. -/
theorem rfRead_rfWrite_self (s : State) (i : RegIndex) (v : Word) :
    rfRead (rfWrite s i v) i = if i = 0#5 then 0#32 else v := by
  by_cases h : i = 0#5
  · simp [rfRead, h]
  · rw [rfRead_of_ne_zero _ h]
    simp [h, rfWrite_xStore_of_ne_zero]

/-- Any other register reads as before. -/
theorem rfRead_rfWrite_of_ne (s : State) {i j : RegIndex} (v : Word) (h : j ≠ i) :
    rfRead (rfWrite s i v) j = rfRead s j := by
  by_cases hi : i = 0#5
  · simp [hi]
  by_cases hj : j = 0#5
  · simp [rfRead, hj]
  have hn : i.toNat ≠ j.toNat := fun e => h (BitVec.eq_of_toNat_eq e.symm)
  rw [rfRead_of_ne_zero _ hj, rfRead_of_ne_zero _ hj]
  simp [rfWrite_xStore_of_ne_zero s i v hi, hn]

/-- No write reaches the storage of x0. -/
theorem rfWrite_x0Stored (s : State) (i : RegIndex) (v : Word) : (rfWrite s i v).xStore[0] = s.xStore[0] := by
  by_cases h : i = 0#5
  · simp [h]
  have hn : i.toNat ≠ 0 := fun e => h (BitVec.eq_of_toNat_eq e)
  simp [rfWrite_xStore_of_ne_zero s i v h, hn]

end Sys2Proof.Machine
end

