-- ==== Sys2Proof/Laws/Step.lean ====
section
/-! SUPPORT. What the interfaces of a step answer, each said once: later proofs cite these and unfold none of them. -/

namespace Sys2Proof.Machine

/-- When read_word answers a word (R41). -/
theorem readWord_ok_iff (s : State) (a w : Word) :
    readWord s a = .ok w ↔
      a.toNat % 4 = 0 ∧ a.toNat + 4 ≤ s.imageLen ∧
        w = wordOfBytes (Memory.read s.mem a.toNat) (Memory.read s.mem (a.toNat + 1))
          (Memory.read s.mem (a.toNat + 2)) (Memory.read s.mem (a.toNat + 3)) := by
  unfold readWord
  split
  · simp_all
  · split
    · next h => simp; omega
    · next h4 h =>
      simp only [ReadResult.ok.injEq, Nat.add_zero]
      constructor
      · intro e; exact ⟨by omega, by omega, e.symm⟩
      · intro e; exact e.2.2.symm

/-- When read_word answers an error, and which (R41). -/
theorem readWord_err_iff (s : State) (a : Word) (e : ErrorRecord) :
    readWord s a = .err e ↔ a.toNat % 4 = 0 ∧ s.imageLen < a.toNat + 4 ∧ e = .outOfBoundsFetch a := by
  unfold readWord
  split
  · simp_all
  · split
    · next h4 h =>
      simp only [ReadResult.err.injEq]
      constructor
      · intro h'; exact ⟨by omega, h, h'.symm⟩
      · intro h'; exact h'.2.2.symm
    · simp; omega

/-- When read_word is refused (R44). -/
theorem readWord_refused_iff (s : State) (a : Word) (r : Refusal) :
    readWord s a = .refused r ↔ a.toNat % 4 ≠ 0 ∧ r = .misalignedRead a := by
  unfold readWord
  split
  · next h => simp [h, eq_comm]
  · split <;> simp_all

/-- When the core is Running (R30). -/
theorem status_running_iff (s : State) : s.status = .running ↔ s.error = none ∧ s.pc.toNat < s.imageLen := by
  unfold State.status
  split
  · simp_all
  · split
    · simp_all
    · simp_all

/-- When the core is Halted (R30). -/
theorem status_halted_iff (s : State) : s.status = .halted ↔ s.error = none ∧ s.imageLen ≤ s.pc.toNat := by
  unfold State.status
  split
  · simp_all
  · split <;> simp_all

/-- When the core is Faulted (R30). -/
theorem status_faulted_iff (s : State) (e : ErrorRecord) : s.status = .faulted e ↔ s.error = some e := by
  unfold State.status
  split
  · simp_all
  · split <;> simp_all

theorem wrapAdd_eq (a b : Word) : wrapAdd a b = a + b := by
  apply BitVec.eq_of_toNat_eq
  simp [wrapAdd, BitVec.toNat_add]

theorem exec_addi (rd rs1 : RegIndex) (imm : Word) (s : State) :
    exec (.addi rd rs1 imm) s = .next (rfWrite s rd (rfRead s rs1 + imm)) := by
  simp [exec, execAddi, writeDest, srcReg, srcImm, wrapAdd_eq]

theorem exec_add (rd rs1 rs2 : RegIndex) (s : State) :
    exec (.add rd rs1 rs2) s = .next (rfWrite s rd (rfRead s rs1 + rfRead s rs2)) := by
  simp [exec, execAdd, writeDest, srcReg, wrapAdd_eq]

/-- Everything execution can do: one guarded register write (R85). -/
theorem exec_next_cases (i : Instr) (s t : State) (h : exec i s = .next t) : ∃ rd v, t = rfWrite s rd v := by
  cases i with
  | addi rd rs1 imm => rw [exec_addi] at h; cases h; exact ⟨_, _, rfl⟩
  | add rd rs1 rs2 => rw [exec_add] at h; cases h; exact ⟨_, _, rfl⟩

/-- Everything a step that answers a next state can have done (R80). -/
theorem step_next_cases (s t : State) (h : step s = .next t) :
    s.status = .running ∧
      ((∃ e, fetch s = .err e ∧ t = raise e s) ∨
       (∃ w u, fetch s = .ok w ∧ decode w = .error u ∧ t = raise (unsupportedRecord u s.pc) (advancePc s)) ∨
       (∃ w i, fetch s = .ok w ∧ decode w = .ok i ∧ exec i (advancePc s) = .next t)) := by
  unfold step at h
  split at h
  · cases h
  · cases h
  · next hr =>
    refine ⟨hr, ?_⟩
    split at h
    · cases h
    · next e he => cases h; exact .inl ⟨e, he, rfl⟩
    · next w hw =>
      split at h
      · next u hu => cases h; exact .inr (.inl ⟨w, u, hw, hu, rfl⟩)
      · next i hi => exact .inr (.inr ⟨w, i, hw, hi, h⟩)

/-- A Running step whose fetch fails (R81). -/
theorem step_of_fetch_err (s : State) (e : ErrorRecord) (hr : s.status = .running) (hf : fetch s = .err e) :
    step s = .next (raise e s) := by
  simp [step, hr, hf]

/-- A Running step whose word does not decode (R82, R131). -/
theorem step_of_decode_error (s : State) (w : Word) (u : UnsupportedWord) (hr : s.status = .running)
    (hf : fetch s = .ok w) (hd : decode w = .error u) :
    step s = .next (raise (unsupportedRecord u s.pc) (advancePc s)) := by
  simp [step, hr, hf, hd]

end Sys2Proof.Machine
end

