-- ==== Sys2Proof/Tests/Slice0.lean ====
section
/-! SUPPORT. Tests of the model against the spec's own encodings and vectors (95_test_vectors.md), and for every
statement of Certificates/Slice0/Obligations.lean that has hypotheses a state and operands that meet them together. -/

namespace Sys2Proof.Tests
open Sys2Proof.Machine

/-! ## Small states -/

/-- The state of a construction under the default capacity, its image the bytes given. -/
def image (bytes : List Byte) : State :=
  { State.initial Config.default with imageLen := bytes.length, mem := Memory.load 0 bytes [] }

/-- The four bytes of R100's example word, `addi x5, x5, -1`, with x5 = 0x10. -/
def sAddi : State := rfWrite (image [0x93, 0x82, 0xF2, 0xFF]) 5 0x10

/-- The four bytes of R101's example word, `add x7, x5, x6`, with x5 = 5 and x6 = 0xFFFF_FFFF. -/
def sAdd : State := rfWrite (rfWrite (image [0xB3, 0x83, 0x62, 0x00]) 5 5) 6 0xFFFFFFFF

/-- Vector E5's image: a word with opcode 0x7F. -/
def sBad : State := image [0x7F, 0x00, 0x00, 0x00]

/-- Vector E2's image: half a word. -/
def sPartial : State := image [0x13, 0x00]

/-- Vector E1's image: nothing. -/
def sEmpty : State := image []

/-- `sAddi` with a pc no run reaches. -/
def sMisaligned : State := { sAddi with pc := 1 }

def regAfter (o : Host.Outcome State Fault Refusal) (i : RegIndex) : Option Word :=
  match o with
  | .next t => some (rfRead t i)
  | .fault _ => none
  | .refused _ => none

def pcAfter (o : Host.Outcome State Fault Refusal) : Option Word :=
  match o with
  | .next t => some t.pc
  | .fault _ => none
  | .refused _ => none

def errorAfter (o : Host.Outcome State Fault Refusal) : Option (Option ErrorRecord) :=
  match o with
  | .next t => some t.error
  | .fault _ => none
  | .refused _ => none

/-! ## Well-formedness refuses ill-formed terms -/

theorem test_wellFormed_refuses_imm_above : (Instr.addi 1 2 2048).wellFormed = false := by decide
theorem test_wellFormed_refuses_imm_below : (Instr.addi 1 2 0xFFFFF7FF).wellFormed = false := by decide
theorem test_wellFormed_accepts_bounds :
    (Instr.addi 31 31 0x7FF).wellFormed = true ∧ (Instr.addi 0 0 0xFFFFF800).wellFormed = true ∧
      (Instr.add 31 0 31).wellFormed = true := by decide

/-! ## Words written out field by field from R62 and R63 -/

/-- imm12 = 0xFFF, rs1 = 6, funct3 = 0, rd = 5, opcode = 0x13. -/
theorem test_decode_addi_bits : decode 0b111111111111_00110_000_00101_0010011#32 = .ok (.addi 5 6 0xFFFFFFFF) := by decide
/-- funct7 = 0, rs2 = 6, rs1 = 5, funct3 = 0, rd = 7, opcode = 0x33. -/
theorem test_decode_add_bits : decode 0b0000000_00110_00101_000_00111_0110011#32 = .ok (.add 7 5 6) := by decide
theorem test_encode_addi_bits : encode (.addi 5 6 0xFFFFFFFF) = 0b111111111111_00110_000_00101_0010011#32 := by decide
theorem test_encode_add_bits : encode (.add 7 5 6) = 0b0000000_00110_00101_000_00111_0110011#32 := by decide
/-- Vectors DV9-DV12: the neighbours of ADD. -/
theorem test_decode_rejects_neighbours_of_add :
    decode 0x40628333#32 = .error ⟨0x40628333, 0x33, some 0⟩ ∧ decode 0x02628333#32 = .error ⟨0x02628333, 0x33, some 0⟩ ∧
      decode 0x803100B3#32 = .error ⟨0x803100B3, 0x33, some 0⟩ ∧
      decode 0x0062C3B3#32 = .error ⟨0x0062C3B3, 0x33, some 4⟩ := by decide
/-- Vectors DV13-DV22: SLTI, and words whose opcode is neither. -/
theorem test_decode_rejects_other_words :
    decode 0x00502293#32 = .error ⟨0x00502293, 0x13, some 2⟩ ∧ decode 0#32 = .error ⟨0, 0, none⟩ ∧
      decode 0xFFFFFFFF#32 = .error ⟨0xFFFFFFFF, 0x7F, none⟩ ∧ decode 0x00000073#32 = .error ⟨0x73, 0x73, none⟩ ∧
      decode 0x0000006F#32 = .error ⟨0x6F, 0x6F, none⟩ ∧ decode 0x00002003#32 = .error ⟨0x2003, 0x03, none⟩ ∧
      decode 0x0FF0000F#32 = .error ⟨0x0FF0000F, 0x0F, none⟩ ∧ decode 0x00000001#32 = .error ⟨1, 1, none⟩ := by decide
theorem test_decodeTableWord :
    decodeTableWord 32 0x00500293 = some (.addi 5 0 5) ∧ decodeTableWord 32 0x33 = some (.add 0 0 0) ∧
      decodeTableWord 32 0x7F = none := by decide

/-! ## The memory interface (vectors M2, M3, M6) -/

theorem test_readWord_second_word : readWord (image [1, 2, 3, 4, 5, 6, 7, 8]) 4 = .ok 0x08070605 := by decide
theorem test_readWord_partial : readWord (image [1, 2, 3, 4, 5, 6]) 4 = .err (.outOfBoundsFetch 4) := by decide
theorem test_readWord_top_byte : readWord (image [0, 0, 0, 0x80]) 0 = .ok 0x80000000 := by decide

/-! ## The instructions (vectors I1, I2, A1, A5) -/

theorem test_addi_negative : regAfter (step sAddi) 5 = some 0x0F ∧ pcAfter (step sAddi) = some 4 := by decide
theorem test_addi_wraps :
    regAfter (step (rfWrite (image [0x93, 0x82, 0x12, 0x00]) 5 0xFFFFFFFF)) 5 = some 0 := by decide
theorem test_add_wraps : regAfter (step sAdd) 7 = some 4 ∧ regAfter (step sAdd) 6 = some 0xFFFFFFFF := by decide
theorem test_add_to_x0 :
    regAfter (step (rfWrite (image [0x33, 0x00, 0xA5, 0x00]) 10 0x0FFE)) 0 = some 0 := by decide

/-! ## Errors and the ends of a run (vectors E1, E2, E5) -/

theorem test_unsupported_word :
    errorAfter (step sBad) = some (some (.unsupportedInstruction 0x7F 0x7F none 0)) ∧ pcAfter (step sBad) = some 4 := by
  decide
theorem test_partial_word :
    errorAfter (step sPartial) = some (some (.outOfBoundsFetch 0)) ∧ pcAfter (step sPartial) = some 0 := by decide
theorem test_empty_image_is_halted : sEmpty.status = .halted ∧ rfRead sEmpty 1 = 0x04000000 := by decide
theorem test_reset_runs_a_placed_word :
    regAfter (step (State.reset.withFetchWord 32 0xFFC08113)) 2 = some 0x03FFFFFC := by decide

/-! ## Assembler (R71, R72) -/

theorem test_assemble_li_range : assemble (.li 5 2048) = none ∧ assemble (.li 5 (-2048)) = some (.addi 5 0 0xFFFFF800) := by
  decide

/-- R71's form, with the words of R100's and R101's examples. -/
theorem test_render :
    render (.addi 5 5 (-1)) = "addi x5, x5, -1" ∧ render (.add 7 5 6) = "add x7, x5, x6" := by decide

/-! ## Witnesses: the hypotheses of each statement are met together -/

theorem witness_DecodeOfEncodeIsTheInstruction :
    (Instr.addi 0 31 0xFFFFF800).wellFormed = true ∧ (Instr.add 31 0 31).wellFormed = true := by decide

theorem witness_EncodeOfDecodeIsTheWord :
    decode 0x7FF00013#32 = .ok (.addi 0 0 0x7FF) ∧ decode 0x01FF8FB3#32 = .ok (.add 31 31 31) := by decide

theorem sAddi_fetches : sAddi.status = .running ∧ fetch sAddi = .ok 0xFFF28293#32 := by decide
theorem sAdd_fetches : sAdd.status = .running ∧ fetch sAdd = .ok 0x006283B3#32 := by decide
theorem sBad_fetches : sBad.status = .running ∧ fetch sBad = .ok 0x0000007F#32 := by decide
theorem sPartial_fails : sPartial.status = .running ∧ fetch sPartial = .err (.outOfBoundsFetch 0#32) := by decide

theorem sAddi_steps : ∃ t, step sAddi = .next t := ⟨_, rfl⟩
theorem sAdd_steps : ∃ t, step sAdd = .next t := ⟨_, rfl⟩
theorem sBad_steps : step sBad = .next (raise (.unsupportedInstruction 0x7F 0x7F none 0) (advancePc sBad)) := rfl
theorem sPartial_steps : step sPartial = .next (raise (.outOfBoundsFetch 0) sPartial) := rfl

theorem witness_OpcodeMapByMaskAndMatch :
    (0x7F#32 &&& 0x0000707F#32 ≠ 0x00000013#32 ∧ 0x7F#32 &&& 0xFE00707F#32 ≠ 0x00000033#32 ∧
      sBad.status = .running ∧ fetch sBad = .ok 0x7F#32) ∧ opcodeField 0xFFFFFFFF#32 = 0x7F#7 := by decide

theorem witness_RejectedWordIsReportedWithItsFields :
    decode 0x40628333#32 = .error ⟨0x40628333, 0x33, some 0⟩ ∧ decode 0#32 = .error ⟨0, 0, none⟩ := by decide

theorem witness_SignExtensionBitByBit : (0 < 1 ∧ 1 ≤ 32) ∧ (0 < 32 ∧ 32 ≤ 32) ∧ 31 < 32 := by decide

theorem witness_AddiImmediateIsTheSignedField : decode 0x80000013#32 = .ok (.addi 0 0 0xFFFFF800) := by decide

theorem witness_WordsOfAbsentFamiliesAreRejected :
    opcodeField 0x0000006F#32 = 0x6F#7 ∧ opcodeField 0x00000057#32 = 0x57#7 ∧
    (0x00000001#32).extractLsb 1 0 ≠ 0b11#2 ∧ (opcodeField 0x00502293#32 = 0x13#7 ∧ funct3Field 0x00502293#32 ≠ 0#3) ∧
    (opcodeField 0x0062C3B3#32 = 0x33#7 ∧ funct3Field 0x0062C3B3#32 ≠ 0#3) ∧
    (opcodeField 0x40628333#32 = 0x33#7 ∧ funct7Field 0x40628333#32 ≠ 0#7) := by decide

theorem witness_PseudoInstructionsAreTheseWords :
    (-2048 ≤ (-2048 : Int) ∧ (-2048 : Int) ≤ 2047) ∧ (-2048 ≤ (2047 : Int) ∧ (2047 : Int) ≤ 2047) ∧
      (-2049 : Int) < -2048 ∧ (2047 : Int) < 2048 := by decide

theorem witness_register_index : (31 : RegIndex) ≠ 0#5 ∧ (1 : RegIndex) ≠ 0#5 := by decide

theorem witness_WritePortIsGuardedAndTheOnlyWriter : ∃ t, exec (.add 0 1 2) sAdd = .next t := ⟨_, rfl⟩

/-- All three kinds of step answer a next state: X0StorageIsUnobservable, NoStepWritesMemory, ControlFlowIgnoresRegisters,
OnlyTheFetchUnitAndResetWritePc. -/
theorem witness_steps :
    (∃ t, step sAddi = .next t ∧ fetch sAddi = .ok 0xFFF28293#32) ∧
    (∃ t, step sBad = .next t ∧ fetch sBad = .ok 0x7F#32) ∧
    (∃ t, step sPartial = .next t ∧ ∀ w, fetch sPartial ≠ .ok w) :=
  ⟨⟨_, rfl, by decide⟩, ⟨_, rfl, by decide⟩, ⟨_, rfl, fun w h => by rw [sPartial_fails.2] at h; cases h⟩⟩

theorem witness_AdditionLawAtEveryStep :
    (sAdd.status = .running ∧ fetch sAdd = .ok 0x006283B3#32 ∧ decode 0x006283B3#32 = .ok (.add 7 5 6)) ∧
    (sAddi.status = .running ∧ fetch sAddi = .ok 0xFFF28293#32 ∧
      decode 0xFFF28293#32 = .ok (.addi 5 5 (sext 0xFFF#12))) := by decide

theorem witness_AddiWordAtPcRuns :
    sAddi.status = .running ∧ fetch sAddi = .ok 0xFFF28293#32 ∧ 0xFFF28293#32 &&& 0x0000707F#32 = 0x00000013#32 ∧
      rfRead sAddi 5#5 = 0x10#32 := by decide

theorem witness_AddWordAtPcRuns :
    sAdd.status = .running ∧ fetch sAdd = .ok 0x006283B3#32 ∧ 0x006283B3#32 &&& 0xFE00707F#32 = 0x00000033#32 ∧
      rfRead sAdd 5#5 = 5#32 ∧ rfRead sAdd 6#5 = 0xFFFFFFFF#32 := by decide

theorem witness_WordsThatWriteX0OnlyAdvancePc :
    ((image [0x13, 0x00, 0x15, 0x00]).status = .running ∧ fetch (image [0x13, 0x00, 0x15, 0x00]) = .ok 0x00150013#32 ∧
      decode 0x00150013#32 = .ok (.addi 0 10 1)) ∧
    ((image [0x33, 0x00, 0xA5, 0x00]).status = .running ∧ fetch (image [0x33, 0x00, 0xA5, 0x00]) = .ok 0x00A50033#32 ∧
      decode 0x00A50033#32 = .ok (.add 0 10 10)) := by decide

theorem witness_ReadWordIsLittleEndianWithinTheImage :
    ((0#32).toNat % 4 = 0 ∧ (0#32).toNat + 4 ≤ sAddi.imageLen) ∧
    ((4#32).toNat % 4 = 0 ∧ sAddi.imageLen < (4#32).toNat + 4) ∧
    construct Config.default [1, 2, 3, 4] = .ok (image [1, 2, 3, 4]) := ⟨by decide, by decide, rfl⟩

theorem witness_MisalignedReadIsRefused : sMisaligned.status = .running ∧ sMisaligned.pc.toNat % 4 ≠ 0 := by decide

/-- The boundary where the program fills the capacity. -/
theorem witness_ConstructionLoadsTheProgramVerbatim :
    Config.Valid { memCapacity := 4 } ∧ ([1, 2, 3, 4] : List Byte).length ≤ 4 := by decide

theorem witness_FirstFetchIsTheProgramsFirstWord :
    construct { memCapacity := 4 } [1, 2, 3, 4] =
      .ok { image [1, 2, 3, 4] with xStore := (State.initial { memCapacity := 4 }).xStore } := rfl

theorem witness_ConstructionRefusesWhatDoesNotFit :
    ¬ Config.Valid { memCapacity := 0 } ∧ ¬ Config.Valid { memCapacity := 2 ^ 32 } ∧
      (Config.Valid { memCapacity := 1 } ∧ 1 < ([1, 2] : List Byte).length) := by decide

theorem witness_EmptyProgramHaltsAtReset :
    Config.Valid Config.default ∧ Config.Valid { memCapacity := 1 } ∧ Config.Valid { memCapacity := 2 ^ 32 - 1 } ∧
      (2 : RegIndex) ≠ 1#5 := by decide

theorem witness_CanonicalMemoriesThatReadAlikeAreEqual :
    Memory.wf (Memory.write (Memory.write [] 5 1) 2 9) ∧ Memory.wf [(2, 9), (5, 1)] ∧
      ∀ a, Memory.read (Memory.write (Memory.write [] 5 1) 2 9) a = Memory.read [(2, 9), (5, 1)] a :=
  ⟨by decide, by decide, fun _ => rfl⟩

theorem witness_StepRunsTheDecodedInstruction :
    sAddi.error = none ∧ sAddi.pc.toNat % 4 = 0 ∧ readByte sAddi sAddi.pc.toNat = some 0x93 ∧
      readByte sAddi (sAddi.pc.toNat + 1) = some 0x82 ∧ readByte sAddi (sAddi.pc.toNat + 2) = some 0xF2 ∧
      readByte sAddi (sAddi.pc.toNat + 3) = some 0xFF ∧
      decode (wordOfBytes 0x93 0x82 0xF2 0xFF) = .ok (.addi 5 5 0xFFFFFFFF) := by decide

theorem witness_PlacedWordRunsNext :
    decodeTableWord 32 0x006283B3 = some (.add 7 5 6) ∧ (advancePc (image [1, 2, 3, 4, 5])).pc.toNat % 4 = 0 ∧
      3 < (advancePc (image [1, 2, 3, 4, 5])).pc.toNat ∧ 3 < (image [1, 2, 3, 4, 5]).imageLen ∧
      (image [1, 2, 3, 4, 5]).pc.toNat + 4 ≤ 4 ∧ 4 < (image [1, 2, 3, 4, 5]).imageLen := by decide

/-- Two ADDI words, and two ADD words, in a row. -/
theorem witness_NextInstructionReadsTheValueJustWritten :
    (∃ t, step (image [0x93, 0x82, 0x12, 0, 0x93, 0x82, 0x12, 0]) = .next t ∧ t.status = .running ∧
      fetch t = .ok 0x00128293#32 ∧ decode 0x00128293#32 = .ok (.addi 5 5 1)) ∧
    (∃ t, step (image [0x33, 0x05, 0xA5, 0, 0x33, 0x05, 0xA5, 0]) = .next t ∧ t.status = .running ∧
      fetch t = .ok 0x00A50533#32 ∧ decode 0x00A50533#32 = .ok (.add 10 10 10)) :=
  ⟨⟨_, rfl, by decide⟩, ⟨_, rfl, by decide⟩⟩

theorem witness_UndecodableWordEntersFaulted :
    sBad.status = .running ∧ fetch sBad = .ok 0x7F#32 ∧ ∀ i, decode 0x7F#32 ≠ .ok i :=
  ⟨by decide, by decide, fun i h => by rw [show decode 0x7F#32 = .error ⟨0x7F, 0x7F, none⟩ from by decide] at h; cases h⟩

theorem witness_PartialWordIsOutOfBoundsFetch :
    (sPartial.error = none ∧ sPartial.pc.toNat % 4 = 0 ∧ sPartial.pc.toNat < sPartial.imageLen ∧
      sPartial.imageLen < sPartial.pc.toNat + 4) ∧
    (∃ t, step sPartial = .next t ∧ t.error = some (.outOfBoundsFetch 0)) ∧
    (sEmpty.error = none ∧ sEmpty.imageLen ≤ sEmpty.pc.toNat) := ⟨by decide, ⟨_, rfl, rfl⟩, by decide⟩

theorem witness_ErrorEntryIsPrecise :
    (∃ t, step sPartial = .next t ∧ t.status = .faulted (.outOfBoundsFetch 0)) ∧
    (∃ t, step sBad = .next t ∧ t.status = .faulted (.unsupportedInstruction 0x7F 0x7F none 0)) :=
  ⟨⟨_, rfl, rfl⟩, ⟨_, rfl, rfl⟩⟩

theorem witness_FaultedIsTerminal : (raise (.outOfBoundsFetch 0) sPartial).status = .faulted (.outOfBoundsFetch 0) := rfl

/-- pc = IMAGE_LEN, the boundary, is Halted, and the step of a one-word image enters it. -/
theorem witness_HaltedWhenThePcLeavesTheImage :
    (advancePc sAddi).status = .halted ∧ (advancePc sAddi).pc.toNat = sAddi.imageLen ∧
      construct Config.default [] = .ok sEmpty ∧ ∃ t, step sAddi = .next t ∧ t.status = .halted :=
  ⟨by decide, by decide, rfl, _, rfl, by decide⟩

theorem witness_StatusIsAFunctionOfErrorPcAndLength :
    (raise (.outOfBoundsFetch 0) sPartial).error = some (.outOfBoundsFetch 0) ∧
    (sEmpty.error = none ∧ sEmpty.imageLen ≤ sEmpty.pc.toNat) ∧
    (sPartial.error = none ∧ sPartial.pc.toNat < sPartial.imageLen) := by decide

theorem witness_StepStopsOnlyWhereThereIsNoStep :
    step sEmpty = .fault .halted ∧
      step (raise (.outOfBoundsFetch 0) sPartial) = .fault (.faulted (.outOfBoundsFetch 0)) ∧
      step sMisaligned = .refused (.misalignedRead 1) := ⟨rfl, rfl, rfl⟩

theorem witness_ConstructionEstablishesTheInvariant :
    construct Config.default [0x93, 0x82, 0xF2, 0xFF] = .ok (image [0x93, 0x82, 0xF2, 0xFF]) := rfl

theorem sAddi_inv : Inv Config.default sAddi :=
  ⟨by decide, by decide, by decide, by decide, by decide, by decide, by decide, trivial⟩
theorem sBad_inv : Inv Config.default sBad :=
  ⟨by decide, by decide, by decide, by decide, by decide, by decide, by decide, trivial⟩
theorem sPartial_inv : Inv Config.default sPartial :=
  ⟨by decide, by decide, by decide, by decide, by decide, by decide, by decide, trivial⟩

/-- The invariant, with a step of each kind: StepKeepsTheInvariant, RunningCoreStepsWithoutPcWrap,
EveryRunEndsWithinItsBound. -/
theorem witness_StepKeepsTheInvariant :
    (Inv Config.default sAddi ∧ sAddi.status = .running ∧ ∃ t, step sAddi = .next t) ∧
    (Inv Config.default sBad ∧ ∃ t, step sBad = .next t) ∧
    (Inv Config.default sPartial ∧ ∃ t, step sPartial = .next t) :=
  ⟨⟨sAddi_inv, by decide, _, rfl⟩, ⟨sBad_inv, _, rfl⟩, ⟨sPartial_inv, _, rfl⟩⟩

theorem witness_RunLoopReturnsTheStateItReached :
    sEmpty.status = .halted ∧ (raise (.outOfBoundsFetch 0) sPartial).status = .faulted (.outOfBoundsFetch 0) ∧
    (∃ t, runLoop 1 sAddi = .ok t) ∧ (∃ e t, runLoop 1 sBad = .err e t) ∧ (∃ t, runLoop 0 sAddi = .unfinished t) :=
  ⟨by decide, rfl, ⟨_, rfl⟩, ⟨_, _, rfl⟩, ⟨_, rfl⟩⟩

theorem witness_FinishedRunShowsOutcomeRegistersAndPc : ∃ t, (runLoop 1 sAddi).state? = some t := ⟨_, rfl⟩

theorem sAddi_decodes : ImageDecodesFrom sAddi := by
  intro a h4 _ hl
  have hl' : a.toNat < 4 := hl
  have : a = 0#32 := BitVec.eq_of_toNat_eq (by simp; omega)
  subst this
  exact ⟨0xFFF28293, .addi 5 5 0xFFFFFFFF, by decide, by decide⟩

theorem witness_CleanImageRunsToItsEnd :
    Inv Config.default sAddi ∧ sAddi.error = none ∧ sAddi.imageLen % 4 = 0 ∧ ImageDecodesFrom sAddi ∧
      0 < (sAddi.imageLen - sAddi.pc.toNat) / 4 := ⟨sAddi_inv, rfl, rfl, sAddi_decodes, by decide⟩

end Sys2Proof.Tests
end

section
/-! The two extensions of R11, bit by bit and at every field width, and the statement O6 about them. -/

namespace Sys2Proof

/-- A bit of R11's mask, all-ones shifted left by the field's width: set exactly above the field. -/
theorem getLsbD_sextMask (n : Nat) {i : Nat} (hi : i < 32) :
    (0xFFFFFFFF#32 <<< n).getLsbD i = !decide (i < n) := by
  have ones : (0xFFFFFFFF#32).getLsbD (i - n) = true := by
    rw [show 0xFFFFFFFF#32 = BitVec.allOnes 32 from rfl, BitVec.getLsbD_allOnes]
    exact decide_eq_true (by omega)
  rw [BitVec.getLsbD_shiftLeft, ones]
  simp [hi]

theorem getLsbD_zext {n : Nat} (v : BitVec n) {i : Nat} (hi : i < 32) : (zext v).getLsbD i = v.getLsbD i := by
  simp [zext, hi]

theorem toNat_zext {n : Nat} (hn : n ≤ 32) (v : BitVec n) : (zext v).toNat = v.toNat :=
  BitVec.toNat_setWidth_of_le hn

/-- A bit of the sign extension: the field's own bit inside the field, its top bit above it. -/
theorem getLsbD_sext {n : Nat} (v : BitVec n) {i : Nat} (hi : i < 32) :
    (sext v).getLsbD i = if i < n then v.getLsbD i else v.msb := by
  have sext_bit : (sext v).getLsbD i = (v.getLsbD i || (v.msb && !decide (i < n))) := by
    cases hm : v.msb
    · simp [sext, hm, getLsbD_zext v hi]
    · simp [sext, hm, getLsbD_zext v hi, getLsbD_sextMask n hi]
  rw [sext_bit]
  by_cases h : i < n
  · simp [h]
  · simp [h, Nat.le_of_not_lt h]

end Sys2Proof

/-- Settles O6: `getLsbD_sext`, with the top bit v[N-1] written for the field's `msb`. -/
theorem signExtensionBitByBit : Obligations.SignExtensionBitByBit := by
  unfold Obligations.SignExtensionBitByBit
  refine ⟨fun n hn v => Sys2Proof.toNat_zext hn v, fun n _ _ v i hi => ?_, by decide, by decide⟩
  rw [Sys2Proof.getLsbD_sext v hi, BitVec.msb_eq_getLsbD_last]
end


section
/-! What the guarded write port changes and what it leaves, and with it the statements O11 and O12: every operation is one
such write, of a value computed from the registers before it. -/

namespace Sys2Proof.Machine

section writePort
variable (s : State) (i : RegIndex) (v : Word)

/-- `rfRead_rfWrite_self`, under the name the statements give the value. -/
theorem rfRead_rfWrite_eq_destValue : rfRead (rfWrite s i v) i = destValue i v :=
  rfRead_rfWrite_self s i v

theorem registersSameBut_rfWrite : RegistersSameBut i s (rfWrite s i v) :=
  fun _ hj => rfRead_rfWrite_of_ne s v hj

theorem sameButRegisters_rfWrite : SameButRegisters s (rfWrite s i v) where
  pc := rfWrite_pc s i v
  imageLen := rfWrite_imageLen s i v
  mem := rfWrite_mem s i v
  bytes := rfWrite_readByte s i v
  error := rfWrite_error s i v

end writePort

theorem destValue_of_ne_zero {i : RegIndex} (hi : i ≠ 0#5) (v : Word) : destValue i v = v :=
  if_neg hi

/-- ADD's sum is of the values before it, whichever of its registers coincide (R23, R101). -/
theorem exec_add_effect (s : State) (rd rs1 rs2 : RegIndex) :
    ∃ t, exec (.add rd rs1 rs2) s = .next t ∧
      rfRead t rd = destValue rd (rfRead s rs1 + rfRead s rs2) ∧ RegistersSameBut rd s t :=
  ⟨_, exec_add rd rs1 rs2 s, rfRead_rfWrite_eq_destValue _ _ _, registersSameBut_rfWrite _ _ _⟩

/-- ADDI's sum is of the value before it, also when its source is its destination (R23, R100). -/
theorem exec_addi_effect (s : State) (rd rs1 : RegIndex) (imm : Word) :
    ∃ t, exec (.addi rd rs1 imm) s = .next t ∧
      rfRead t rd = destValue rd (rfRead s rs1 + imm) ∧ RegistersSameBut rd s t :=
  ⟨_, exec_addi rd rs1 imm s, rfRead_rfWrite_eq_destValue _ _ _, registersSameBut_rfWrite _ _ _⟩

end Sys2Proof.Machine

open Sys2Proof.Machine

/-- Settles O11: the write port's own laws, and `exec_next_cases` for its being the only writer. -/
theorem writePortIsGuardedAndTheOnlyWriter : Obligations.WritePortIsGuardedAndTheOnlyWriter := by
  unfold Obligations.WritePortIsGuardedAndTheOnlyWriter
  refine ⟨rfWrite_zero, fun s i v hi => ⟨?_, ?_, ?_⟩, exec_next_cases⟩
  · rw [rfRead_rfWrite_eq_destValue, destValue_of_ne_zero hi]
  · exact registersSameBut_rfWrite s i v
  · exact sameButRegisters_rfWrite s i v

/-- Settles O12: the effect of ADD and of ADDI at every choice of registers, then at coinciding ones. -/
theorem sourcesAreReadBeforeTheDestinationIsWritten :
    Obligations.SourcesAreReadBeforeTheDestinationIsWritten := by
  unfold Obligations.SourcesAreReadBeforeTheDestinationIsWritten
  refine ⟨exec_add_effect, fun s rd => ?_, exec_addi_effect, fun s rd imm => ?_⟩
  · obtain ⟨t, ht, hrd, -⟩ := exec_add_effect s rd rd rd
    exact ⟨t, ht, hrd⟩
  · obtain ⟨t, ht, hrd, -⟩ := exec_addi_effect s rd rd imm
    exact ⟨t, ht, hrd⟩
end

section
/-! Who writes pc (R29), and the statement O33: the fetch unit at a step, no operation, and construction. -/

namespace Sys2Proof.Machine

/-- No operation writes pc. -/
theorem exec_next_pc {i : Instr} {s t : State} (h : exec i s = .next t) : t.pc = s.pc := by
  obtain ⟨rd, v, rfl⟩ := exec_next_cases i s t h
  exact rfWrite_pc s rd v

/-- The two ways pc can stand after a step, told by what the fetch answered (R29, R81, R82). -/
theorem step_next_pc_cases {s t : State} (h : step s = .next t) :
    ((∃ e, fetch s = .err e) ∧ t.pc = s.pc) ∨ ((∃ w, fetch s = .ok w) ∧ t.pc = s.pc + 4#32) := by
  obtain ⟨-, ⟨e, hf, rfl⟩ | ⟨w, u, hf, -, rfl⟩ | ⟨w, i, hf, -, hx⟩⟩ := step_next_cases s t h
  · exact .inl ⟨⟨e, hf⟩, raise_pc e s⟩
  · exact .inr ⟨⟨w, hf⟩, by rw [raise_pc, advancePc_pc]⟩
  · exact .inr ⟨⟨w, hf⟩, by rw [exec_next_pc hx, advancePc_pc]⟩

/-- When construction answers a state, and which (R34, R47, R161). -/
theorem construct_ok_iff (cfg : Config) (program : List Byte) (s : State) :
    construct cfg program = .ok s ↔ cfg.Valid ∧ program.length ≤ cfg.memCapacity ∧
      s = { State.initial cfg with imageLen := program.length, mem := Memory.load 0 program [] } := by
  unfold construct
  split
  · next hv => simp [hv]
  · next hv =>
    split
    · next hl => simp [hl]
    · next hl =>
      rw [and_iff_right (not_not.mp hv), and_iff_right (Nat.le_of_not_lt hl), Except.ok.injEq, eq_comm]

theorem construct_ok_pc {cfg : Config} {program : List Byte} {s : State} (h : construct cfg program = .ok s) :
    s.pc = 0#32 := by
  obtain ⟨-, -, rfl⟩ := (construct_ok_iff cfg program s).mp h
  exact initial_pc cfg

end Sys2Proof.Machine

open Sys2Proof.Machine

/-- Settles O33: `step_next_pc_cases`, the case the fetch rules out removed, then no operation and construction. -/
theorem onlyTheFetchUnitAndResetWritePc : Obligations.OnlyTheFetchUnitAndResetWritePc := by
  unfold Obligations.OnlyTheFetchUnitAndResetWritePc
  refine ⟨fun s t w h hf => ?_, fun s t h hno => ?_, fun _ _ _ h => exec_next_pc h, fun _ _ _ h => construct_ok_pc h⟩
  · obtain ⟨⟨e, he⟩, -⟩ | ⟨-, hpc⟩ := step_next_pc_cases h
    · rw [hf] at he
      cases he
    · exact hpc
  · obtain ⟨-, hpc⟩ | ⟨⟨w, hw⟩, -⟩ := step_next_pc_cases h
    · exact hpc
    · exact absurd hw (hno w)
end

section
/-! Words as four bytes of the image: the value of a little-endian word (R42), read_word told through the byte interface
(R40, R41), the bytes a construction leaves (R161), and with them the statement O21. -/

namespace Sys2Proof

/-- A byte put above everything below bit n adds its value times 2^n: no bit overlaps, none is shifted out. -/
theorem toNat_or_zext_shiftLeft {lo : Word} {n : Nat} (b : Byte) (hn : n + 8 ≤ 32) (hlo : lo.toNat < 2 ^ n) :
    (lo ||| zext b <<< n).toNat = lo.toNat + b.toNat * 2 ^ n := by
  have fits : b.toNat <<< n < 2 ^ 32 :=
    (Nat.shiftLeft_lt b.isLt).trans_le (Nat.pow_le_pow_right (by decide) (by omega))
  calc (lo ||| zext b <<< n).toNat
      = lo.toNat ||| b.toNat <<< n := by
        rw [BitVec.toNat_or, BitVec.toNat_shiftLeft, toNat_zext (by decide), Nat.mod_eq_of_lt fits]
    _ = b.toNat <<< n + lo.toNat := by rw [Nat.or_comm, Nat.shiftLeft_add_eq_or_of_lt hlo]
    _ = lo.toNat + b.toNat * 2 ^ n := by rw [Nat.shiftLeft_eq, Nat.add_comm]

/-- R42's sum, of four bytes in address order. -/
theorem toNat_wordOfBytes (b0 b1 b2 b3 : Byte) : (wordOfBytes b0 b1 b2 b3).toNat =
    b0.toNat + b1.toNat * 2 ^ 8 + b2.toNat * 2 ^ 16 + b3.toNat * 2 ^ 24 := by
  have h0 : (zext b0).toNat = b0.toNat := toNat_zext (by decide) b0
  have h1 := toNat_or_zext_shiftLeft (lo := zext b0) b1 (n := 8) (by decide) (by omega)
  have h2 := toNat_or_zext_shiftLeft (lo := zext b0 ||| zext b1 <<< 8) b2 (n := 16) (by decide) (by omega)
  have h3 := toNat_or_zext_shiftLeft (lo := zext b0 ||| zext b1 <<< 8 ||| zext b2 <<< 16) b3 (n := 24)
    (by decide) (by omega)
  rw [wordOfBytes, h3, h2, h1, h0]

end Sys2Proof

namespace Sys2Proof.Machine

/-- Which addresses hold a byte, and which byte (R40). -/
theorem readByte_eq_some_iff (s : State) (a : Nat) (b : Byte) :
    readByte s a = some b ↔ a < s.imageLen ∧ Memory.read s.mem a = b := by
  unfold readByte
  split
  · next h => simp [h]
  · next h => simp [h]

/-- read_word at an aligned address whose four bytes the image holds (R41, R42). -/
theorem readWord_of_readByte {s : State} {a : Word} {b0 b1 b2 b3 : Byte} (h4 : a.toNat % 4 = 0)
    (h0 : readByte s a.toNat = some b0) (h1 : readByte s (a.toNat + 1) = some b1)
    (h2 : readByte s (a.toNat + 2) = some b2) (h3 : readByte s (a.toNat + 3) = some b3) :
    readWord s a = .ok (wordOfBytes b0 b1 b2 b3) := by
  obtain ⟨-, rfl⟩ := (readByte_eq_some_iff _ _ _).mp h0
  obtain ⟨-, rfl⟩ := (readByte_eq_some_iff _ _ _).mp h1
  obtain ⟨-, rfl⟩ := (readByte_eq_some_iff _ _ _).mp h2
  obtain ⟨hlt, rfl⟩ := (readByte_eq_some_iff _ _ _).mp h3
  exact (readWord_ok_iff _ _ _).mpr ⟨h4, hlt, rfl⟩

/-- A constructed state holds the program's byte k at address k, and no other byte (R40, R161). -/
theorem construct_ok_readByte {cfg : Config} {program : List Byte} {s : State}
    (h : construct cfg program = .ok s) (k : Nat) : readByte s k = program[k]? := by
  obtain ⟨-, -, rfl⟩ := (construct_ok_iff cfg program s).mp h
  unfold readByte
  split
  · next hk =>
    have loaded := Memory.read_load 0 program [] k hk
    rw [Nat.zero_add] at loaded
    rw [loaded, List.getElem?_eq_getElem hk]
  · next hk => exact (List.getElem?_eq_none (Nat.le_of_not_lt hk)).symm

end Sys2Proof.Machine

open Sys2Proof Sys2Proof.Machine

/-- Settles O21: `readWord_ok_iff` and `toNat_wordOfBytes` within the image, `readWord_err_iff` past it, and R42's
example from the bytes construction leaves. -/
theorem readWordIsLittleEndianWithinTheImage : Obligations.ReadWordIsLittleEndianWithinTheImage := by
  unfold Obligations.ReadWordIsLittleEndianWithinTheImage
  refine ⟨fun s a h4 hle => ?_, fun s a h4 hlt => ?_, fun cfg rest s h => ?_⟩
  · have byteAt (k : Nat) (hk : k < s.imageLen) : readByte s k = some (Memory.read s.mem k) :=
      (readByte_eq_some_iff s k _).mpr ⟨hk, rfl⟩
    exact ⟨_, _, _, _, _, (readWord_ok_iff s a _).mpr ⟨h4, hle, rfl⟩, byteAt _ (by omega), byteAt _ (by omega),
      byteAt _ (by omega), byteAt _ (by omega), toNat_wordOfBytes _ _ _ _⟩
  · exact (readWord_err_iff s a _).mpr ⟨h4, hlt, rfl⟩
  · have bytes := construct_ok_readByte h
    have word : wordOfBytes 0x01#8 0x02#8 0x03#8 0x04#8 = 0x04030201#32 := by decide
    rw [← word]
    exact readWord_of_readByte rfl (bytes 0) (bytes 1) (bytes 2) (bytes 3)
end

section
/-! A step on a word that decodes, the words of ADDI and ADD built from their fields (R62, R63), and with them the statement
O20 about rd = 0 (R69). -/

namespace Sys2Proof

/-- Every destination, source and 12-bit immediate is an ADDI word's (R62, R66). -/
theorem decode_iFormat_addi (rd rs1 : RegIndex) (imm : BitVec 12) :
    decode (iFormat imm rs1 0b000#3 rd 0x13#7) = .ok (.addi rd rs1 (sext imm)) := by
  simp [decode_ok_addi_iff]

/-- Every destination and pair of sources is an ADD word's (R63, R66). -/
theorem decode_rFormat_add (rd rs1 rs2 : RegIndex) :
    decode (rFormat 0b0000000#7 rs2 rs1 0b000#3 rd 0x33#7) = .ok (.add rd rs1 rs2) := by
  simp [decode_ok_add_iff]

end Sys2Proof

namespace Sys2Proof.Machine

/-- A Running step whose word decodes: the operation, after the pc advance (R80, R82, R85). -/
theorem step_of_decode_ok {s : State} {w : Word} {i : Instr} (hr : s.status = .running) (hf : fetch s = .ok w)
    (hd : decode w = .ok i) : step s = exec i (advancePc s) := by
  simp [step, hr, hf, hd]

/-- An ADDI to x0 is a no-op of the execute engine (R22, R69). -/
theorem exec_addi_zero (rs1 : RegIndex) (imm : Word) (s : State) : exec (.addi 0#5 rs1 imm) s = .next s := by
  rw [exec_addi, rfWrite_zero]

/-- An ADD to x0 is a no-op of the execute engine (R22, R69). -/
theorem exec_add_zero (rs1 rs2 : RegIndex) (s : State) : exec (.add 0#5 rs1 rs2) s = .next s := by
  rw [exec_add, rfWrite_zero]

end Sys2Proof.Machine

open Sys2Proof Sys2Proof.Machine

/-- Settles O20: the step is the operation after the pc advance, and with rd = 0 the operation changes nothing; the words
are the two formats with rd = 0. -/
theorem wordsThatWriteX0OnlyAdvancePc : Obligations.WordsThatWriteX0OnlyAdvancePc := by
  unfold Obligations.WordsThatWriteX0OnlyAdvancePc
  refine ⟨fun s w rs1 imm hr hf hd => ?_, fun s w rs1 rs2 hr hf hd => ?_,
    fun rs1 imm => ⟨_, decode_iFormat_addi 0#5 rs1 imm⟩, fun rs1 rs2 => ⟨_, decode_rFormat_add 0#5 rs1 rs2⟩, by decide⟩
  · rw [step_of_decode_ok hr hf hd, exec_addi_zero, advancePc]
  · rw [step_of_decode_ok hr hf hd, exec_add_zero, advancePc]
end

section
/-! That execution always answers a next state (R85), and with it the statement O16. -/

namespace Sys2Proof.Machine

/-- Execution is total, and whatever the operation it is one guarded register write (R22, R85). -/
theorem exec_eq_next_rfWrite (i : Instr) (s : State) : ∃ rd v, exec i s = .next (rfWrite s rd v) := by
  cases i with
  | addi rd rs1 imm => exact ⟨_, _, exec_addi rd rs1 imm s⟩
  | add rd rs1 rs2 => exact ⟨_, _, exec_add rd rs1 rs2 s⟩

end Sys2Proof.Machine

open Sys2Proof.Machine

/-- Settles O16: every execution is one guarded write, whose frame is the write port's; the values written are
`exec_addi`'s and `exec_add`'s. -/
theorem executeEngineIsTotalAndWritesOneRegister : Obligations.ExecuteEngineIsTotalAndWritesOneRegister := by
  unfold Obligations.ExecuteEngineIsTotalAndWritesOneRegister
  refine ⟨fun i s => ?_, exec_addi, exec_add⟩
  obtain ⟨rd, v, hexec⟩ := exec_eq_next_rfWrite i s
  exact ⟨_, rd, v, hexec, rfl, registersSameBut_rfWrite s rd v, sameButRegisters_rfWrite s rd v⟩
end

section
/-! The one addition law (R102), the same bits unsigned and signed, at a step on a word of either row, and with it the
statement O17. -/

namespace Sys2Proof

/-- Sign extension keeps the immediate's signed value (R11). -/
theorem toInt_sext_imm12 (v : BitVec 12) : (sext v).toInt = v.toInt := by
  rw [sext_imm12_eq_signExtend, BitVec.toInt_signExtend_of_le (by decide)]

end Sys2Proof

namespace Sys2Proof.Machine

/-- The wrapping sum of the unsigned values is that of the signed values (R102). -/
theorem wrapAdd_eq_ofInt (a b : Word) : wrapAdd a b = BitVec.ofInt 32 (a.toInt + b.toInt) := by
  rw [wrapAdd_eq, BitVec.ofInt_add, BitVec.ofInt_toInt, BitVec.ofInt_toInt]

section decodedStep
variable {s : State} {w : Word} {rd rs1 rs2 : RegIndex} {imm : Word}

/-- The state after a Running step on an ADD's word (R80, R101). -/
theorem step_of_decode_add (hr : s.status = .running) (hf : fetch s = .ok w) (hd : decode w = .ok (.add rd rs1 rs2)) :
    step s = .next (rfWrite (advancePc s) rd (rfRead s rs1 + rfRead s rs2)) := by
  rw [step_of_decode_ok hr hf hd, exec_add, advancePc_rfRead, advancePc_rfRead]

/-- The state after a Running step on an ADDI's word (R80, R100). -/
theorem step_of_decode_addi (hr : s.status = .running) (hf : fetch s = .ok w)
    (hd : decode w = .ok (.addi rd rs1 imm)) : step s = .next (rfWrite (advancePc s) rd (rfRead s rs1 + imm)) := by
  rw [step_of_decode_ok hr hf hd, exec_addi, advancePc_rfRead]

end decodedStep

/-- The write of a step leaves the registers as they were before the pc advance, but for its destination. -/
theorem registersSameBut_rfWrite_advancePc (s : State) (rd : RegIndex) (v : Word) :
    RegistersSameBut rd s (rfWrite (advancePc s) rd v) := by
  intro j hj
  rw [registersSameBut_rfWrite (advancePc s) rd v j hj, advancePc_rfRead]

/-- What a step that writes a sum shows: the sum of the unsigned and of the signed values, and the frame (R102). -/
theorem step_sum_effect {s : State} {rd : RegIndex} {a b : Word}
    (h : step s = .next (rfWrite (advancePc s) rd (a + b))) :
    ∃ t, step s = .next t ∧
      rfRead t rd = destValue rd (BitVec.ofNat 32 ((a.toNat + b.toNat) % 2 ^ 32)) ∧
      rfRead t rd = destValue rd (BitVec.ofInt 32 (a.toInt + b.toInt)) ∧
      RegistersSameBut rd s t ∧ SameButRegisters (advancePc s) t := by
  refine ⟨_, h, ?_, ?_, registersSameBut_rfWrite_advancePc s rd _, sameButRegisters_rfWrite _ rd _⟩
  · rw [rfRead_rfWrite_eq_destValue, ← wrapAdd_eq, wrapAdd]
  · rw [rfRead_rfWrite_eq_destValue, ← wrapAdd_eq, wrapAdd_eq_ofInt]

end Sys2Proof.Machine

open Sys2Proof Sys2Proof.Machine

/-- Settles O17: each row's step writes one sum, of which `step_sum_effect` tells both readings and the frame; an ADDI's
immediate is the sign extension of its word's own field. -/
theorem additionLawAtEveryStep : Obligations.AdditionLawAtEveryStep := by
  unfold Obligations.AdditionLawAtEveryStep
  refine ⟨fun s w rd rs1 rs2 hr hf hd => ?_, fun s w rd rs1 imm12 hr hf hd => ?_, fun w rd rs1 imm hd => ?_⟩
  · exact step_sum_effect (step_of_decode_add hr hf hd)
  · rw [← toInt_sext_imm12]
    exact step_sum_effect (step_of_decode_addi hr hf hd)
  · obtain ⟨-, -, -, -, himm⟩ := (decode_ok_addi_iff w rd rs1 imm).mp hd
    exact ⟨imm12Field w, himm⟩
end

section
/-! The state a construction answers, field by field as reset leaves it (R34, R161), the run loop's end at a Halted core
(R84), and with them the statements O24 and O26. -/

namespace Sys2Proof.Machine

/-- The run loop returns a Halted core as it stands, whatever the bound (R84). -/
theorem runLoop_of_halted {s : State} (h : s.status = .halted) (n : Nat) : runLoop n s = .ok s := by
  unfold runLoop
  rw [h]

section initialRegisters
variable (cfg : Config)

/-- x1 holds MEM_CAPACITY at reset (R34, decision D15). -/
theorem initial_rfRead_one : rfRead (State.initial cfg) 1#5 = BitVec.ofNat 32 cfg.memCapacity := rfl

/-- Every register but x1 reads 0 at reset (R34, decision D17). -/
theorem initial_rfRead_of_ne_one {i : RegIndex} (hi : i ≠ 1#5) : rfRead (State.initial cfg) i = 0#32 := by
  by_cases h0 : i = 0#5
  · rw [h0]
    rfl
  · have ne_one : 1 ≠ i.toNat := fun h => hi (BitVec.eq_of_toNat_eq h.symm)
    rw [rfRead_of_ne_zero _ h0, State.initial, Vector.getElem_set_ne _ _ ne_one, Vector.getElem_replicate]

end initialRegisters

/-- A capacity that R7 allows fits x1. -/
theorem toNat_initial_rfRead_one {cfg : Config} (hv : cfg.Valid) :
    (rfRead (State.initial cfg) 1#5).toNat = cfg.memCapacity := by
  obtain ⟨-, hmax⟩ := hv
  rw [initial_rfRead_one, BitVec.toNat_ofNat, Nat.mod_eq_of_lt (by omega)]

section constructed
variable {cfg : Config} {program : List Byte} {s : State} (h : construct cfg program = .ok s)
include h

theorem construct_ok_error : s.error = none := by
  obtain ⟨-, -, rfl⟩ := (construct_ok_iff cfg program s).mp h
  exact initial_error cfg

theorem construct_ok_imageLen : s.imageLen = program.length := by
  obtain ⟨-, -, rfl⟩ := (construct_ok_iff cfg program s).mp h
  rfl

/-- The program is put into the image alone: the registers read as in the state before it (R161). -/
theorem construct_ok_rfRead (i : RegIndex) : rfRead s i = rfRead (State.initial cfg) i := by
  obtain ⟨-, -, rfl⟩ := (construct_ok_iff cfg program s).mp h
  rfl

/-- A constructed core is Running exactly when there is a program (R30, R164). -/
theorem construct_ok_status_running_iff : s.status = .running ↔ 0 < program.length := by
  simp [status_running_iff, construct_ok_error h, construct_ok_pc h, construct_ok_imageLen h]

/-- A constructed core is Halted exactly when the program is empty (R30, R164). -/
theorem construct_ok_status_halted_iff : s.status = .halted ↔ program = [] := by
  simp [status_halted_iff, construct_ok_error h, construct_ok_pc h, construct_ok_imageLen h]

end constructed

/-- The first fetch after the construction of four bytes or more is the word of the first four (R42, R162). -/
theorem construct_ok_fetch {cfg : Config} {b0 b1 b2 b3 : Byte} {rest : List Byte} {s : State}
    (h : construct cfg (b0 :: b1 :: b2 :: b3 :: rest) = .ok s) : fetch s = .ok (wordOfBytes b0 b1 b2 b3) := by
  have bytes := construct_ok_readByte h
  rw [fetch, construct_ok_pc h]
  exact readWord_of_readByte rfl (bytes 0) (bytes 1) (bytes 2) (bytes 3)

/-- Under a capacity R7 allows, the construction of no bytes answers a state (R47, R164). -/
theorem construct_nil_ok {cfg : Config} (hv : cfg.Valid) : ∃ s, construct cfg [] = .ok s :=
  ⟨_, (construct_ok_iff cfg [] _).mpr ⟨hv, Nat.zero_le _, rfl⟩⟩

end Sys2Proof.Machine

open Sys2Proof Sys2Proof.Machine

/-- Settles O24: the first fetch is the word of the first four bytes, whose value is R42's sum. -/
theorem firstFetchIsTheProgramsFirstWord : Obligations.FirstFetchIsTheProgramsFirstWord := by
  unfold Obligations.FirstFetchIsTheProgramsFirstWord
  intro cfg b0 b1 b2 b3 rest s h
  have nonempty : 0 < (b0 :: b1 :: b2 :: b3 :: rest).length := Nat.succ_pos _
  exact ⟨construct_ok_pc h, (construct_ok_status_running_iff h).mpr nonempty, _, construct_ok_fetch h,
    toNat_wordOfBytes b0 b1 b2 b3⟩

/-- Settles O26: the construction succeeds and is Halted, so every run ends where it starts, in reset's registers. -/
theorem emptyProgramHaltsAtReset : Obligations.EmptyProgramHaltsAtReset := by
  unfold Obligations.EmptyProgramHaltsAtReset
  intro cfg hv
  obtain ⟨s, h⟩ := construct_nil_ok hv
  have halted : s.status = .halted := (construct_ok_status_halted_iff h).mpr rfl
  refine ⟨s, h, halted, runLoop_of_halted halted, construct_ok_pc h, ?_, fun i hi => ?_⟩
  · rw [construct_ok_rfRead h, toNat_initial_rfRead_one hv]
  · rw [construct_ok_rfRead h, initial_rfRead_of_ne_one cfg hi]
end

section
/-! Immediates and formats taken apart into their fields again (R62, R63, R64), and with them the two round trips O1 and
O2. -/

namespace Sys2Proof

section immediates

/-- The low twelve bits of a sign-extended field are the field (R11). -/
theorem extractLsb_sext_imm12 (v : BitVec 12) : (sext v).extractLsb 11 0 = v := by
  refine BitVec.eq_of_getLsbD_eq fun i hi => ?_
  rw [BitVec.getLsbD_extractLsb, Nat.zero_add, getLsbD_sext v (by omega), if_pos hi]
  simp only [hi, decide_true, Bool.true_and]

/-- A word between −2048 and 2047 is the sign extension of its own low twelve bits (R64). -/
theorem sext_extractLsb_of_range {imm : Word} (hmin : -2048 ≤ imm.toInt) (hmax : imm.toInt ≤ 2047) :
    sext (imm.extractLsb 11 0) = imm := by
  have low_bits : (imm.extractLsb 11 0 : BitVec 12) = imm.signExtend 12 := by
    rw [BitVec.signExtend_eq_setWidth_of_le _ (by decide), BitVec.setWidth_eq_extractLsb' (by decide)]
    rfl
  apply BitVec.eq_of_toInt_eq
  calc (sext (imm.extractLsb 11 0 : BitVec 12)).toInt
      = imm.toInt.bmod (2 ^ min 12 32) := by rw [toInt_sext_imm12, low_bits, BitVec.toInt_signExtend]
    _ = imm.toInt := Int.bmod_eq_of_le (by norm_num; omega) (by norm_num; omega)

theorem neg_2048_le_toInt_sext (v : BitVec 12) : -2048 ≤ (sext v).toInt := by
  rw [toInt_sext_imm12]
  exact BitVec.le_toInt v

theorem toInt_sext_le_2047 (v : BitVec 12) : (sext v).toInt ≤ 2047 := by
  rw [toInt_sext_imm12]
  exact Int.le_of_lt_add_one BitVec.toInt_lt

/-- Every immediate a 12-bit field can give is in an ADDI's range (R64). -/
theorem wellFormed_addi_sext (rd rs1 : RegIndex) (v : BitVec 12) :
    (Instr.addi rd rs1 (sext v)).wellFormed = true := by
  simp [Instr.wellFormed, neg_2048_le_toInt_sext, toInt_sext_le_2047]

end immediates

/-- A word is the I-format word of its own fields (R62). -/
theorem iFormat_fields (w : Word) :
    iFormat (imm12Field w) (rs1Field w) (funct3Field w) (rdField w) (opcodeField w) = w := by
  refine BitVec.eq_of_getLsbD_eq fun i hi => ?_
  simp only [getLsbD_iFormat, imm12Field, rs1Field, funct3Field, rdField, opcodeField, BitVec.getLsbD_extractLsb]
  interval_cases i <;> simp

/-- A word is the R-format word of its own fields (R63). -/
theorem rFormat_fields (w : Word) :
    rFormat (funct7Field w) (rs2Field w) (rs1Field w) (funct3Field w) (rdField w) (opcodeField w) = w := by
  refine BitVec.eq_of_getLsbD_eq fun i hi => ?_
  simp only [getLsbD_rFormat, funct7Field, rs2Field, rs1Field, funct3Field, rdField, opcodeField,
    BitVec.getLsbD_extractLsb]
  interval_cases i <;> simp

/-- The decoder undoes the encoder on every instruction some word stands for (R66). -/
theorem decode_encode {i : Instr} (h : i.wellFormed = true) : decode (encode i) = .ok i := by
  cases i with
  | addi rd rs1 imm =>
    obtain ⟨hmin, hmax⟩ : -2048 ≤ imm.toInt ∧ imm.toInt ≤ 2047 := by simpa [Instr.wellFormed] using h
    rw [encode, decode_iFormat_addi, sext_extractLsb_of_range hmin hmax]
  | add rd rs1 rs2 => exact decode_rFormat_add rd rs1 rs2

/-- The encoder undoes the decoder: no bit of a word that decodes is ignored (R66). -/
theorem encode_of_decode {w : Word} {i : Instr} (h : decode w = .ok i) : encode i = w := by
  cases i with
  | addi rd rs1 imm =>
    obtain ⟨hop, hf3, rfl, rfl, rfl⟩ := (decode_ok_addi_iff w rd rs1 imm).mp h
    rw [encode, extractLsb_sext_imm12, ← hop, ← hf3, iFormat_fields]
  | add rd rs1 rs2 =>
    obtain ⟨hop, hf3, hf7, rfl, rfl, rfl⟩ := (decode_ok_add_iff w rd rs1 rs2).mp h
    rw [encode, ← hop, ← hf3, ← hf7, rFormat_fields]

theorem wellFormed_of_decode {w : Word} {i : Instr} (h : decode w = .ok i) : i.wellFormed = true := by
  cases i with
  | addi rd rs1 imm =>
    obtain ⟨-, -, -, -, rfl⟩ := (decode_ok_addi_iff w rd rs1 imm).mp h
    exact wellFormed_addi_sext rd rs1 (imm12Field w)
  | add rd rs1 rs2 => rfl

end Sys2Proof

open Sys2Proof

/-- Settles O1: the fields of a word just put together are the ones put in, and an immediate in range is the sign extension
of its own field. -/
theorem decodeOfEncodeIsTheInstruction : Obligations.DecodeOfEncodeIsTheInstruction := by
  unfold Obligations.DecodeOfEncodeIsTheInstruction
  exact fun _ h => decode_encode h

/-- Settles O2: a word is put together from its own fields, of which a row's word fixes all that its instruction does not
carry. -/
theorem encodeOfDecodeIsTheWord : Obligations.EncodeOfDecodeIsTheWord := by
  unfold Obligations.EncodeOfDecodeIsTheWord
  exact fun _ _ h => ⟨encode_of_decode h, wellFormed_of_decode h⟩
end

section
/-! Which words the decoder rejects and what it reports of them (R66, R68, R70), and the statements O4, O5, O7 and O8. -/

namespace Sys2Proof

/-- When the report of a rejected word holds its funct3, and which (R66, R131, decision D8). -/
def reportedFunct3 (w : Word) : Option (BitVec 3) :=
  if opcodeField w = 0x13#7 ∨ opcodeField w = 0x33#7 then some (funct3Field w) else none

section rejectedWords
variable {w : Word}

/-- A word of neither opcode is rejected without its funct3 (R66). -/
theorem decode_of_opcode_ne (h13 : opcodeField w ≠ 0x13#7) (h33 : opcodeField w ≠ 0x33#7) :
    decode w = .error { word := w, opcode := opcodeField w, funct3 := none } := by
  simp [decode, h13, h33]

/-- A word of ADDI's opcode with another funct3 is rejected with it (R66). -/
theorem decode_of_opcode_0x13 (hop : opcodeField w = 0x13#7) (hf3 : funct3Field w ≠ 0b000#3) :
    decode w = .error { word := w, opcode := 0x13#7, funct3 := some (funct3Field w) } := by
  simp [decode, hop, hf3]

/-- A word of ADD's opcode with another funct3 or funct7 is rejected with its funct3 (R66). -/
theorem decode_of_opcode_0x33 (hop : opcodeField w = 0x33#7)
    (hf : funct3Field w ≠ 0b000#3 ∨ funct7Field w ≠ 0b0000000#7) :
    decode w = .error { word := w, opcode := 0x33#7, funct3 := some (funct3Field w) } := by
  simp [decode, hop, not_and_or.mpr hf]

/-- Everything the decoder can answer: an instruction, or one report (R65, R66). -/
theorem decode_cases (w : Word) : (∃ i, decode w = .ok i) ∨
    decode w = .error { word := w, opcode := opcodeField w, funct3 := reportedFunct3 w } := by
  by_cases h13 : opcodeField w = 0x13#7
  · by_cases hf3 : funct3Field w = 0b000#3
    · exact .inl ⟨_, (decode_ok_addi_iff w _ _ _).mpr ⟨h13, hf3, rfl, rfl, rfl⟩⟩
    · exact .inr (by rw [decode_of_opcode_0x13 h13 hf3, reportedFunct3, if_pos (.inl h13), h13])
  by_cases h33 : opcodeField w = 0x33#7
  · by_cases hf : funct3Field w = 0b000#3 ∧ funct7Field w = 0b0000000#7
    · exact .inl ⟨_, (decode_ok_add_iff w _ _ _).mpr ⟨h33, hf.1, hf.2, rfl, rfl, rfl⟩⟩
    · exact .inr (by rw [decode_of_opcode_0x33 h33 (not_and_or.mp hf), reportedFunct3, if_pos (.inr h33), h33])
  · exact .inr (by rw [decode_of_opcode_ne h13 h33, reportedFunct3, if_neg (by simp [h13, h33])])

/-- The report of a rejected word (R66, R131). -/
theorem eq_of_decode_error {u : UnsupportedWord} (h : decode w = .error u) :
    u = { word := w, opcode := opcodeField w, funct3 := reportedFunct3 w } := by
  obtain ⟨i, hi⟩ | hu := decode_cases w
  · rw [h] at hi
    cases hi
  · exact Except.error.inj (h.symm.trans hu)

/-- A word that is no instruction is rejected with its report. -/
theorem decode_error_of_ne_ok (h : ∀ i, decode w ≠ .ok i) :
    decode w = .error { word := w, opcode := opcodeField w, funct3 := reportedFunct3 w } :=
  (decode_cases w).resolve_left fun ⟨i, hi⟩ => h i hi

/-- Both rows' opcodes end in the bits 11, so a word with other low bits is of neither (R70). -/
theorem opcodeField_ne_of_low_bits {op : BitVec 7} (hop : op.extractLsb 1 0 = 0b11#2)
    (h : (w.extractLsb 1 0 : BitVec 2) ≠ 0b11#2) : opcodeField w ≠ op := by
  intro heq
  have low_bits : (w.extractLsb 1 0 : BitVec 2) = (opcodeField w).extractLsb 1 0 := by
    refine BitVec.eq_of_getLsbD_eq fun i hi => ?_
    rw [opcodeField, BitVec.getLsbD_extractLsb, BitVec.getLsbD_extractLsb, BitVec.getLsbD_extractLsb]
    interval_cases i <;> simp
  exact h (by rw [low_bits, heq, hop])

end rejectedWords

end Sys2Proof

open Sys2Proof

/-- Settles O4: the one report `decode` gives of a word it rejects. -/
theorem rejectedWordIsReportedWithItsFields : Obligations.RejectedWordIsReportedWithItsFields := by
  unfold Obligations.RejectedWordIsReportedWithItsFields
  intro w u h
  rw [eq_of_decode_error h]
  exact ⟨rfl, rfl, rfl⟩

/-- Settles O5: the ten words are closed, so the decoder is evaluated on each. -/
theorem writtenOutWordsDecode : Obligations.WrittenOutWordsDecode := by
  unfold Obligations.WrittenOutWordsDecode
  decide

/-- Settles O7: an ADDI's immediate is the sign extension of its field, which keeps the field's signed value. -/
theorem addiImmediateIsTheSignedField : Obligations.AddiImmediateIsTheSignedField := by
  unfold Obligations.AddiImmediateIsTheSignedField
  refine ⟨fun w rd rs1 imm h => ?_, by decide, by decide, by decide, by decide⟩
  obtain ⟨-, -, rfl, rfl, rfl⟩ := (decode_ok_addi_iff w rd rs1 imm).mp h
  exact ⟨rfl, toInt_sext_imm12 _, neg_2048_le_toInt_sext _, toInt_sext_le_2047 _, rfl, rfl⟩

/-- Settles O8: none of the opcodes listed is 0x13 or 0x33, nor is any whose low two bits are not 11; the neighbours of the
two rows are rejected with their funct3. -/
theorem wordsOfAbsentFamiliesAreRejected : Obligations.WordsOfAbsentFamiliesAreRejected := by
  unfold Obligations.WordsOfAbsentFamiliesAreRejected
  refine ⟨fun w h => ?_, fun w h => ?_, fun w => decode_of_opcode_0x13, fun w => decode_of_opcode_0x33⟩
  · refine decode_of_opcode_ne (fun hop => ?_) (fun hop => ?_)
    · rw [hop] at h
      exact absurd h (by decide)
    · rw [hop] at h
      exact absurd h (by decide)
  · exact decode_of_opcode_ne (opcodeField_ne_of_low_bits (by decide) h) (opcodeField_ne_of_low_bits (by decide) h)
end

section
/-! The invariant's step lemma, one lemma per kind of transition, and the statements O44 and O45 it gives (R27, R28, R30,
R134). -/

namespace Sys2Proof.Machine

/-- The address of a word inside an image of a valid capacity does not wrap when it is advanced (R28). -/
theorem toNat_add_four_of_fits {cfg : Config} {s : State} {a : Word} (hv : cfg.Valid)
    (hfits : s.imageLen ≤ cfg.memCapacity) (ha : a.toNat + 4 ≤ s.imageLen) : (a + 4#32).toNat = a.toNat + 4 := by
  obtain ⟨-, hmax⟩ := hv
  exact BitVec.toNat_add_of_lt (by simp; omega)

section transitions
variable {cfg : Config} {s : State} (hI : Inv cfg s)
include hI

/-- A word fetched lies in the image whole, so that pc advances without wrapping. -/
theorem Inv.toNat_advancePc {w : Word} (hf : fetch s = .ok w) : (advancePc s).pc.toNat = s.pc.toNat + 4 := by
  obtain ⟨-, hle, -⟩ := (readWord_ok_iff s s.pc w).mp hf
  exact toNat_add_four_of_fits hI.capacity hI.imageFits hle

/-- The pc advance after a successful fetch keeps the invariant (R82). -/
theorem Inv.after_advancePc {w : Word} (hr : s.status = .running) (hf : fetch s = .ok w) : Inv cfg (advancePc s) := by
  obtain ⟨hnone, -⟩ := (status_running_iff s).mp hr
  obtain ⟨-, hle, -⟩ := (readWord_ok_iff s s.pc w).mp hf
  have hpc := hI.toNat_advancePc hf
  have haligned := hI.pcAligned
  exact {
    capacity := hI.capacity
    imageFits := hI.imageFits
    pcAligned := by rw [hpc]; omega
    pcInImage := by rw [hpc]; exact hle
    x0Stored := hI.x0Stored
    memCanonical := hI.memCanonical
    memInImage := hI.memInImage
    errorDescribes := by rw [ErrorDescribesState, advancePc_error, hnone]; trivial }

/-- A guarded register write keeps the invariant (R22). -/
theorem Inv.after_rfWrite (rd : RegIndex) (v : Word) : Inv cfg (rfWrite s rd v) where
  capacity := hI.capacity
  imageFits := by rw [rfWrite_imageLen]; exact hI.imageFits
  pcAligned := by rw [rfWrite_pc]; exact hI.pcAligned
  pcInImage := by rw [rfWrite_pc, rfWrite_imageLen]; exact hI.pcInImage
  x0Stored := by rw [rfWrite_x0Stored]; exact hI.x0Stored
  memCanonical := by rw [rfWrite_mem]; exact hI.memCanonical
  memInImage := by rw [rfWrite_mem, rfWrite_imageLen]; exact hI.memInImage
  errorDescribes := by simpa [ErrorDescribesState] using hI.errorDescribes

/-- Error entry keeps the invariant when the record describes the state it enters (R134). -/
theorem Inv.after_raise {e : ErrorRecord} (he : ErrorDescribesState (raise e s)) : Inv cfg (raise e s) where
  capacity := hI.capacity
  imageFits := hI.imageFits
  pcAligned := hI.pcAligned
  pcInImage := hI.pcInImage
  x0Stored := hI.x0Stored
  memCanonical := hI.memCanonical
  memInImage := hI.memInImage
  errorDescribes := he

end transitions

/-- A Running core whose fetch fails records an error that describes it (R132). -/
theorem errorDescribes_of_fetch_err {s : State} {e : ErrorRecord} (hr : s.status = .running) (hf : fetch s = .err e) :
    ErrorDescribesState (raise e s) := by
  obtain ⟨-, hlt⟩ := (status_running_iff s).mp hr
  obtain ⟨-, hpart, rfl⟩ := (readWord_err_iff s s.pc e).mp hf
  exact ⟨rfl, hlt, hpart⟩

/-- A core whose word is rejected records an error that describes it (R131). -/
theorem errorDescribes_of_decode_error {s : State} {w : Word} {u : UnsupportedWord} (hf : fetch s = .ok w)
    (hd : decode w = .error u) : ErrorDescribesState (raise (unsupportedRecord u s.pc) (advancePc s)) := by
  obtain rfl := eq_of_decode_error hd
  exact ⟨rfl, hf, hd⟩

/-- The invariant's step lemma. -/
theorem Inv.after_step {cfg : Config} {s t : State} (hI : Inv cfg s) (h : step s = .next t) : Inv cfg t := by
  obtain ⟨hr, ⟨e, hf, rfl⟩ | ⟨w, u, hf, hd, rfl⟩ | ⟨w, i, hf, -, hx⟩⟩ := step_next_cases s t h
  · exact hI.after_raise (errorDescribes_of_fetch_err hr hf)
  · exact (hI.after_advancePc hr hf).after_raise (errorDescribes_of_decode_error hf hd)
  · obtain ⟨rd, v, rfl⟩ := exec_next_cases i _ t hx
    exact (hI.after_advancePc hr hf).after_rfWrite rd v

/-- Everything a step can answer (R80, R83, R135, R44): a next state while Running at an aligned pc, and otherwise the
stop that the status or pc calls for. -/
theorem step_cases (s : State) :
    (s.status = .halted ∧ step s = .fault .halted) ∨
    (∃ e, s.status = .faulted e ∧ step s = .fault (.faulted e)) ∨
    (s.status = .running ∧ s.pc.toNat % 4 ≠ 0 ∧ step s = .refused (.misalignedRead s.pc)) ∨
    (s.status = .running ∧ s.pc.toNat % 4 = 0 ∧ ∃ t, step s = .next t) := by
  cases hs : s.status with
  | halted => exact .inl ⟨rfl, by simp [step, hs]⟩
  | faulted e => exact .inr (.inl ⟨e, rfl, by simp [step, hs]⟩)
  | running =>
    refine .inr (.inr ?_)
    cases hf : fetch s with
    | refused r =>
      obtain ⟨hmis, rfl⟩ := (readWord_refused_iff s s.pc r).mp hf
      exact .inl ⟨rfl, hmis, by simp [step, hs, hf]⟩
    | err e =>
      obtain ⟨haligned, -, -⟩ := (readWord_err_iff s s.pc e).mp hf
      exact .inr ⟨rfl, haligned, _, step_of_fetch_err s e hs hf⟩
    | ok w =>
      obtain ⟨haligned, -, -⟩ := (readWord_ok_iff s s.pc w).mp hf
      refine .inr ⟨rfl, haligned, ?_⟩
      obtain ⟨i, hd⟩ | hd := decode_cases w
      · obtain ⟨rd, v, hx⟩ := exec_eq_next_rfWrite i (advancePc s)
        exact ⟨_, (step_of_decode_ok hs hf hd).trans hx⟩
      · exact ⟨_, step_of_decode_error s w _ hs hf hd⟩

/-- Under the invariant a Running core takes a step (R28, R44). -/
theorem Inv.exists_step {cfg : Config} {s : State} (hI : Inv cfg s) (hr : s.status = .running) :
    ∃ t, step s = .next t := by
  obtain ⟨hs, -⟩ | ⟨e, hs, -⟩ | ⟨-, hmis, -⟩ | ⟨-, -, ht⟩ := step_cases s
  · rw [hr] at hs
    cases hs
  · rw [hr] at hs
    cases hs
  · exact absurd hI.pcAligned hmis
  · exact ht

end Sys2Proof.Machine

open Sys2Proof.Machine

/-- Settles O44: the pc advance, the register write and the error entry each keep the invariant, and a step is made of
these. -/
theorem stepKeepsTheInvariant : Obligations.StepKeepsTheInvariant := by
  unfold Obligations.StepKeepsTheInvariant
  exact fun _ _ _ hI h => hI.after_step h

/-- Settles O45: the step exists, and pc moves only after a fetch, whose word lies in the image whole. -/
theorem runningCoreStepsWithoutPcWrap : Obligations.RunningCoreStepsWithoutPcWrap := by
  unfold Obligations.RunningCoreStepsWithoutPcWrap
  intro cfg s hI hr
  obtain ⟨t, ht⟩ := hI.exists_step hr
  refine ⟨t, ht, ?_⟩
  obtain ⟨-, hpc⟩ | ⟨⟨w, hf⟩, hpc⟩ := step_next_pc_cases ht
  · exact .inl hpc
  · exact .inr (by rw [hpc, ← advancePc_pc, hI.toNat_advancePc hf])

/-- Settles O22: the alignment test of read_word comes first, and a Running step at such a pc has no other answer. -/
theorem misalignedReadIsRefused : Obligations.MisalignedReadIsRefused := by
  unfold Obligations.MisalignedReadIsRefused
  refine ⟨fun s a h => (readWord_refused_iff s a _).mpr ⟨h, rfl⟩, fun s hr hmis => ?_⟩
  obtain ⟨hs, -⟩ | ⟨e, hs, -⟩ | ⟨-, -, hstep⟩ | ⟨-, haligned, -⟩ := step_cases s
  · rw [hr] at hs
    cases hs
  · rw [hr] at hs
    cases hs
  · exact hstep
  · exact absurd haligned hmis

/-- Settles O40: the two stops that are faults and the one that is a refusal, read off `step_cases`. -/
theorem stepStopsOnlyWhereThereIsNoStep : Obligations.StepStopsOnlyWhereThereIsNoStep := by
  unfold Obligations.StepStopsOnlyWhereThereIsNoStep
  refine ⟨fun s f h => ?_, fun s r h => ?_⟩
  · obtain ⟨hs, hstep⟩ | ⟨e, hs, hstep⟩ | ⟨-, -, hstep⟩ | ⟨-, -, t, hstep⟩ := step_cases s <;>
      rw [h] at hstep <;> cases hstep
    · exact .inl ⟨rfl, hs⟩
    · exact .inr ⟨e, rfl, hs⟩
  · obtain ⟨-, hstep⟩ | ⟨e, -, hstep⟩ | ⟨hr, hmis, hstep⟩ | ⟨-, -, t, hstep⟩ := step_cases s <;>
      rw [h] at hstep <;> cases hstep
    exact ⟨hr, hmis, rfl⟩
end

section
/-! The run loop's equations, what state it shows, its bound under the invariant (R84, R87, R88, R163), and the statements
O37, O46, O47, O48 and O49. -/

namespace Sys2Proof.Machine

section equations
variable {s t : State}

/-- The run loop returns a Faulted core's error and state, whatever the bound (R84, R135). -/
theorem runLoop_of_faulted {e : ErrorRecord} (h : s.status = .faulted e) (n : Nat) : runLoop n s = .err e s := by
  unfold runLoop
  rw [h]

theorem runLoop_zero_of_running (h : s.status = .running) : runLoop 0 s = .unfinished s := by
  unfold runLoop
  rw [h]

theorem status_running_of_step (h : step s = .next t) : s.status = .running :=
  (step_next_cases s t h).1

/-- While the core steps, the run loop goes on from its next state (R84). -/
theorem runLoop_succ_of_step (h : step s = .next t) (n : Nat) : runLoop (n + 1) s = runLoop n t := by
  rw [runLoop, status_running_of_step h]
  simp only [h]

theorem runLoop_succ_of_refused {r : Refusal} (hr : s.status = .running) (h : step s = .refused r) (n : Nat) :
    runLoop (n + 1) s = .refused r := by
  rw [runLoop, hr]
  simp only [h]

end equations

section hostRun
variable {M : Host.Core} {k : Nat} {s t : M.State}

theorem core_run_succ_of_step (h : M.step s = .next t) : M.run (k + 1) s = M.run k t := by
  simp only [Host.Core.run, h]

/-- A run of one step more that stops nowhere is a step that answers a next state, and the run from there. -/
theorem core_run_succ_cases (h : M.run (k + 1) s = .next t) : ∃ s', M.step s = .next s' ∧ M.run k s' = .next t := by
  rw [Host.Core.run] at h
  split at h
  · next s' hstep => exact ⟨s', hstep, h⟩
  · cases h
  · cases h

/-- What every step keeps, every number of steps keeps. -/
theorem core_run_keeps {P : M.State → Prop} (hstep : ∀ s t, P s → M.step s = .next t → P t) (hs : P s)
    (h : M.run k s = .next t) : P t := by
  induction k generalizing s with
  | zero =>
    cases h
    exact hs
  | succ k ih =>
    obtain ⟨s', hnext, hrest⟩ := core_run_succ_cases h
    exact ih (hstep s s' hs hnext) hrest

end hostRun

/-- Everything the run loop can answer: a refusal, or a state that at most the bound's number of steps reach, with the
outcome its status calls for (R84). -/
theorem runLoop_cases (n : Nat) (s : State) : (∃ r, runLoop n s = .refused r) ∨
    ∃ k t, k ≤ n ∧ Sys2Proof.core.run k s = .next t ∧
      ((runLoop n s = .ok t ∧ t.status = .halted) ∨
       (∃ e, runLoop n s = .err e t ∧ t.status = .faulted e) ∨
       (runLoop n s = .unfinished t ∧ t.status = .running ∧ k = n)) := by
  induction n generalizing s with
  | zero =>
    refine .inr ⟨0, s, Nat.le_refl 0, rfl, ?_⟩
    cases hs : s.status with
    | halted => exact .inl ⟨runLoop_of_halted hs 0, rfl⟩
    | faulted e => exact .inr (.inl ⟨e, runLoop_of_faulted hs 0, rfl⟩)
    | running => exact .inr (.inr ⟨runLoop_zero_of_running hs, rfl, rfl⟩)
  | succ n ih =>
    obtain ⟨hs, -⟩ | ⟨e, hs, -⟩ | ⟨hr, -, hstep⟩ | ⟨-, -, s', hstep⟩ := step_cases s
    · exact .inr ⟨0, s, Nat.zero_le _, rfl, .inl ⟨runLoop_of_halted hs _, hs⟩⟩
    · exact .inr ⟨0, s, Nat.zero_le _, rfl, .inr (.inl ⟨e, runLoop_of_faulted hs _, hs⟩)⟩
    · exact .inl ⟨_, runLoop_succ_of_refused hr hstep n⟩
    · rw [runLoop_succ_of_step hstep]
      obtain hrefused | ⟨k, t, hk, hrun, hend⟩ := ih s'
      · exact .inl hrefused
      · refine .inr ⟨k + 1, t, Nat.succ_le_succ hk, (core_run_succ_of_step (M := Sys2Proof.core) hstep).trans hrun, ?_⟩
        rwa [Nat.add_right_cancel_iff]

/-- Whatever state a run shows is one that steps reach (R84). -/
theorem core_run_of_state? {n : Nat} {s t : State} (h : (runLoop n s).state? = some t) :
    ∃ k, Sys2Proof.core.run k s = .next t := by
  obtain ⟨r, hend⟩ | ⟨k, t', -, hrun, ⟨hend, -⟩ | ⟨e, hend, -⟩ | ⟨hend, -⟩⟩ := runLoop_cases n s <;>
    rw [hend] at h <;> cases h <;> exact ⟨k, hrun⟩

/-- A run that has ended is not changed by a larger bound (R84). -/
theorem runLoop_of_le {n m : Nat} {s : State} (hend : (runLoop n s).Ended) (hle : n ≤ m) :
    runLoop m s = runLoop n s := by
  induction n generalizing m s with
  | zero =>
    cases hs : s.status with
    | halted => rw [runLoop_of_halted hs, runLoop_of_halted hs]
    | faulted e => rw [runLoop_of_faulted hs, runLoop_of_faulted hs]
    | running =>
      rw [runLoop_zero_of_running hs] at hend
      exact hend.elim
  | succ n ih =>
    obtain ⟨m, rfl⟩ := Nat.exists_eq_add_of_le' hle
    obtain ⟨hs, -⟩ | ⟨e, hs, -⟩ | ⟨hr, -, hstep⟩ | ⟨-, -, t, hstep⟩ := step_cases s
    · rw [runLoop_of_halted hs, runLoop_of_halted hs]
    · rw [runLoop_of_faulted hs, runLoop_of_faulted hs]
    · rw [runLoop_succ_of_refused hr hstep] at hend
      exact hend.elim
    · rw [runLoop_succ_of_step hstep] at hend
      rw [← Nat.add_assoc, runLoop_succ_of_step hstep, runLoop_succ_of_step hstep]
      exact ih hend (by omega)

/-- No step changes the image: the memory, and where it ends (R49, R51). -/
theorem step_next_image {s t : State} (h : step s = .next t) : t.imageLen = s.imageLen ∧ t.mem = s.mem := by
  obtain ⟨-, ⟨e, -, rfl⟩ | ⟨w, u, -, -, rfl⟩ | ⟨w, i, -, -, hx⟩⟩ := step_next_cases s t h
  · exact ⟨rfl, rfl⟩
  · exact ⟨rfl, rfl⟩
  · obtain ⟨rd, v, rfl⟩ := exec_next_cases i _ t hx
    exact ⟨rfWrite_imageLen _ rd v, rfWrite_mem _ rd v⟩

/-- So no run does. -/
theorem core_run_image {k : Nat} {s t : State} (h : Sys2Proof.core.run k s = .next t) :
    t.imageLen = s.imageLen ∧ t.mem = s.mem := by
  refine core_run_keeps (M := Sys2Proof.core) (P := fun u : State => u.imageLen = s.imageLen ∧ u.mem = s.mem)
    (fun u u' ⟨hlen, hmem⟩ hstep => ?_) ⟨rfl, rfl⟩ h
  obtain ⟨hlen', hmem'⟩ := step_next_image hstep
  exact ⟨hlen'.trans hlen, hmem'.trans hmem⟩

section sameImage
variable {s t : State} (hlen : t.imageLen = s.imageLen) (hmem : t.mem = s.mem)
include hlen hmem

theorem readByte_of_same_image (a : Nat) : readByte t a = readByte s a := by
  rw [readByte, readByte, hlen, hmem]

theorem readWord_of_same_image (a : Word) : readWord t a = readWord s a := by
  rw [readWord, readWord, hlen, hmem]

end sameImage

/-- Every word of a step's next state reads as before (R51). -/
theorem readWord_of_step {s t : State} (h : step s = .next t) (a : Word) : readWord t a = readWord s a := by
  obtain ⟨hlen, hmem⟩ := step_next_image h
  exact readWord_of_same_image hlen hmem a

/-- A step of a core with the invariant either reports an error, or moves pc past the word it fetched. -/
theorem Inv.step_progress {cfg : Config} {s t : State} (hI : Inv cfg s) (h : step s = .next t) :
    (∃ e, t.status = .faulted e) ∨ (t.error = none ∧ t.pc.toNat = s.pc.toNat + 4) := by
  obtain ⟨hr, ⟨e, -, rfl⟩ | ⟨w, u, -, -, rfl⟩ | ⟨w, i, hf, -, hx⟩⟩ := step_next_cases s t h
  · exact .inl ⟨e, raise_status e s⟩
  · exact .inl ⟨_, raise_status _ _⟩
  · obtain ⟨hnone, -⟩ := (status_running_iff s).mp hr
    obtain ⟨rd, v, rfl⟩ := exec_next_cases i _ t hx
    exact .inr ⟨by rw [rfWrite_error, advancePc_error, hnone], by rw [rfWrite_pc, hI.toNat_advancePc hf]⟩

/-- R87's bound, from any state of the invariant. -/
theorem Inv.runLoop_ends {cfg : Config} {s : State} (hI : Inv cfg s) {n : Nat}
    (hn : (s.imageLen - s.pc.toNat) / 4 = n) :
    (∃ t, runLoop n s = .ok t) ∨ ∃ e t, runLoop (n + 1) s = .err e t := by
  induction n generalizing s with
  | zero =>
    cases hs : s.status with
    | halted => exact .inl ⟨s, runLoop_of_halted hs 0⟩
    | faulted e => exact .inr ⟨e, s, runLoop_of_faulted hs 1⟩
    | running =>
      obtain ⟨t, ht⟩ := hI.exists_step hs
      obtain ⟨e, he⟩ | ⟨-, hpc⟩ := hI.step_progress ht
      · exact .inr ⟨e, t, by rw [runLoop_succ_of_step ht, runLoop_of_faulted he]⟩
      · have room := (hI.after_step ht).pcInImage
        obtain ⟨hlen, -⟩ := step_next_image ht
        omega
  | succ n ih =>
    cases hs : s.status with
    | halted => exact .inl ⟨s, runLoop_of_halted hs _⟩
    | faulted e => exact .inr ⟨e, s, runLoop_of_faulted hs _⟩
    | running =>
      obtain ⟨t, ht⟩ := hI.exists_step hs
      rw [runLoop_succ_of_step ht, runLoop_succ_of_step ht]
      obtain ⟨e, he⟩ | ⟨-, hpc⟩ := hI.step_progress ht
      · exact .inr ⟨e, t, runLoop_of_faulted he _⟩
      · obtain ⟨hlen, -⟩ := step_next_image ht
        exact ih (hI.after_step ht) (by omega)

/-- The bound of the whole run is R87's at pc = 0, so enough at every pc. -/
theorem Inv.run_ended {cfg : Config} {s : State} (hI : Inv cfg s) : (run s).Ended := by
  have run_eq {n : Nat} (hend : (runLoop n s).Ended) (hn : n ≤ s.imageLen / 4 + 1) : run s = runLoop n s :=
    runLoop_of_le hend hn
  have bound : (s.imageLen - s.pc.toNat) / 4 ≤ s.imageLen / 4 := Nat.div_le_div_right (Nat.sub_le _ _)
  obtain ⟨t, ht⟩ | ⟨e, t, ht⟩ := hI.runLoop_ends rfl
  · rw [run_eq (by rw [ht]; trivial) (by omega), ht]
    trivial
  · rw [run_eq (by rw [ht]; trivial) (by omega), ht]
    trivial

/-- A core with a clean image before it: no error, and only whole words of ADDI or ADD from pc on (R163). -/
structure CleanFrom (cfg : Config) (s : State) : Prop where
  inv : Inv cfg s
  noError : s.error = none
  wholeWords : s.imageLen % 4 = 0
  decodes : ImageDecodesFrom s

/-- A core with a clean image before it steps, until pc reaches the image's end, to such a core one word on. -/
theorem CleanFrom.step_next {cfg : Config} {s : State} (hC : CleanFrom cfg s) (hlt : s.pc.toNat < s.imageLen) :
    ∃ t, step s = .next t ∧ CleanFrom cfg t ∧ t.pc.toNat = s.pc.toNat + 4 ∧ t.imageLen = s.imageLen := by
  have hr : s.status = .running := (status_running_iff s).mpr ⟨hC.noError, hlt⟩
  obtain ⟨w, i, hf, hd⟩ := hC.decodes s.pc hC.inv.pcAligned (Nat.le_refl _) hlt
  obtain ⟨rd, v, hx⟩ := exec_eq_next_rfWrite i (advancePc s)
  have hstep : step s = .next (rfWrite (advancePc s) rd v) := (step_of_decode_ok hr hf hd).trans hx
  have hpc : (rfWrite (advancePc s) rd v).pc.toNat = s.pc.toNat + 4 := by
    rw [rfWrite_pc, hC.inv.toNat_advancePc hf]
  obtain ⟨hlen, -⟩ := step_next_image hstep
  refine ⟨_, hstep, ⟨hC.inv.after_step hstep, ?_, ?_, fun a h4 hle hend => ?_⟩, hpc, hlen⟩
  · rw [rfWrite_error, advancePc_error, hC.noError]
  · rw [hlen, hC.wholeWords]
  · rw [readWord_of_step hstep]
    exact hC.decodes a h4 (by omega) (by omega)

/-- With no word left, pc stands at the image's end: the core is Halted (R83). -/
theorem CleanFrom.halted_of_no_word_left {cfg : Config} {s : State} (hC : CleanFrom cfg s)
    (h0 : (s.imageLen - s.pc.toNat) / 4 = 0) : s.status = .halted ∧ s.pc.toNat = s.imageLen := by
  have haligned := hC.inv.pcAligned
  have hle := hC.inv.pcInImage
  have hwhole := hC.wholeWords
  exact ⟨(status_halted_iff s).mpr ⟨hC.noError, by omega⟩, by omega⟩

/-- A clean image is run to its end, one word a step (R87, R163). -/
theorem CleanFrom.runLoop_halts {cfg : Config} {s : State} (hC : CleanFrom cfg s) {n : Nat}
    (hn : (s.imageLen - s.pc.toNat) / 4 = n) : ∃ t, runLoop n s = .ok t ∧ t.pc.toNat = s.imageLen := by
  induction n generalizing s with
  | zero =>
    obtain ⟨hs, hpc⟩ := hC.halted_of_no_word_left hn
    exact ⟨s, runLoop_of_halted hs 0, hpc⟩
  | succ n ih =>
    obtain ⟨t, hstep, hC', hpc, hlen⟩ := hC.step_next (by omega)
    rw [runLoop_succ_of_step hstep, ← hlen]
    exact ih hC' (by omega)

/-- A bound below the number of words left leaves a clean image's run unfinished. -/
theorem CleanFrom.runLoop_unfinished {cfg : Config} {s : State} (hC : CleanFrom cfg s) {n : Nat}
    (hn : n < (s.imageLen - s.pc.toNat) / 4) : ∃ t, runLoop n s = .unfinished t := by
  induction n generalizing s with
  | zero => exact ⟨s, runLoop_zero_of_running ((status_running_iff s).mpr ⟨hC.noError, by omega⟩)⟩
  | succ n ih =>
    obtain ⟨t, hstep, hC', hpc, hlen⟩ := hC.step_next (by omega)
    rw [runLoop_succ_of_step hstep]
    exact ih hC' (by omega)

theorem length_registerValues (s : State) : (registerValues s).length = 32 := by
  rw [registerValues, List.length_map, List.length_range]

/-- The list shown holds each register as the read port gives it (R88). -/
theorem registerValues_getElem? (s : State) (i : RegIndex) : (registerValues s)[i.toNat]? = some (rfRead s i) := by
  rw [registerValues, List.getElem?_map, List.getElem?_range i.isLt, Option.map_some, BitVec.ofNat_toNat,
    BitVec.setWidth_eq]

end Sys2Proof.Machine

open Sys2Proof.Machine

/-- Settles O48: a step reports an error or uses up a word of the image, by induction on the words left. -/
theorem everyRunEndsWithinItsBound : Obligations.EveryRunEndsWithinItsBound := by
  unfold Obligations.EveryRunEndsWithinItsBound
  exact fun _ _ hI => ⟨hI.runLoop_ends rfl, hI.run_ended⟩

/-- Settles O49: each step keeps the image clean and uses up one word of it, by induction on the words left. -/
theorem cleanImageRunsToItsEnd : Obligations.CleanImageRunsToItsEnd := by
  unfold Obligations.CleanImageRunsToItsEnd
  intro cfg s hI hnone hwhole hdecodes
  have hC : CleanFrom cfg s := ⟨hI, hnone, hwhole, hdecodes⟩
  exact ⟨hC.runLoop_halts rfl, fun n hn => hC.runLoop_unfinished hn⟩

/-- Settles O46: the loop's equations, and `runLoop_cases` with the outcome at hand. -/
theorem runLoopReturnsTheStateItReached : Obligations.RunLoopReturnsTheStateItReached := by
  unfold Obligations.RunLoopReturnsTheStateItReached
  refine ⟨fun n s h => runLoop_of_halted h n, fun n s e h => runLoop_of_faulted h n,
    fun n s t h => runLoop_succ_of_step h n, fun n s t => ?_⟩
  obtain ⟨r, hend⟩ | ⟨k, t', hk, hrun, ⟨hend, hs⟩ | ⟨e', hend, hs⟩ | ⟨hend, hs, rfl⟩⟩ := runLoop_cases n s <;>
    rw [hend]
  · exact ⟨nofun, nofun, nofun⟩
  · refine ⟨fun h => ?_, nofun, nofun⟩
    cases h
    exact ⟨hs, k, hk, hrun⟩
  · refine ⟨nofun, fun e h => ?_, nofun⟩
    cases h
    exact ⟨hs, k, hk, hrun⟩
  · refine ⟨nofun, nofun, fun h => ?_⟩
    cases h
    exact ⟨hs, hrun⟩

/-- Settles O47: the observation is read off its definition, and the image is kept by every step, so by every run. -/
theorem finishedRunShowsOutcomeRegistersAndPc : Obligations.FinishedRunShowsOutcomeRegistersAndPc := by
  unfold Obligations.FinishedRunShowsOutcomeRegistersAndPc
  refine ⟨fun s => ⟨_, rfl, rfl, rfl, length_registerValues s, registerValues_getElem? s⟩,
    fun e s => ⟨_, rfl, rfl, rfl, length_registerValues s, registerValues_getElem? s⟩, fun n s t h => ?_⟩
  obtain ⟨k, hrun⟩ := core_run_of_state? h
  obtain ⟨hlen, hmem⟩ := core_run_image hrun
  exact ⟨hlen, readByte_of_same_image hlen hmem⟩

/-- Settles O37: of `step_cases` only the Faulted one is left, and the loop looks at the status first. -/
theorem faultedIsTerminal : Obligations.FaultedIsTerminal := by
  unfold Obligations.FaultedIsTerminal
  intro s e hs
  refine ⟨?_, runLoop_of_faulted hs⟩
  obtain ⟨hs', -⟩ | ⟨e', hs', hstep⟩ | ⟨hs', -⟩ | ⟨hs', -⟩ := step_cases s <;> rw [hs] at hs' <;> cases hs'
  exact hstep
end

section
/-! The rows of the opcode table by mask and match (R68), steps on their words (R100, R101), and the statements O3, O14, O15,
O18, O19, O30 and O31. -/

namespace Sys2Proof

/-- A word that decodes lies in the row of its instruction, since it is that instruction's encoding (R68). -/
theorem and_rowMask_of_decode {w : Word} {i : Instr} (h : decode w = .ok i) : w &&& rowMask i = rowMatch i := by
  rw [← encode_of_decode h]
  cases i with
  | addi rd rs1 imm => exact Laws.RowBits.addi rd rs1 imm
  | add rd rs1 rs2 => exact Laws.RowBits.add rd rs1 rs2

section maskedFields
variable (w m : Word)

theorem opcodeField_and : opcodeField (w &&& m) = opcodeField w &&& opcodeField m := BitVec.extractLsb_and

theorem funct3Field_and : funct3Field (w &&& m) = funct3Field w &&& funct3Field m := BitVec.extractLsb_and

theorem funct7Field_and : funct7Field (w &&& m) = funct7Field w &&& funct7Field m := BitVec.extractLsb_and

end maskedFields

section rows
variable {w : Word}

/-- ADDI's mask keeps the whole opcode and funct3, so its row's words decode to ADDI, fields as they stand (R68). -/
theorem decode_of_addi_row (h : w &&& 0x0000707F#32 = 0x00000013#32) :
    decode w = .ok (.addi (rdField w) (rs1Field w) (sext (imm12Field w))) := by
  have hop : opcodeField w &&& BitVec.allOnes 7 = 0x13#7 := (opcodeField_and w _).symm.trans (congrArg opcodeField h)
  have hf3 : funct3Field w &&& BitVec.allOnes 3 = 0b000#3 := (funct3Field_and w _).symm.trans (congrArg funct3Field h)
  rw [BitVec.and_allOnes] at hop hf3
  exact (decode_ok_addi_iff w _ _ _).mpr ⟨hop, hf3, rfl, rfl, rfl⟩

/-- ADD's mask keeps the whole opcode, funct3 and funct7, so its row's words decode to ADD (R68). -/
theorem decode_of_add_row (h : w &&& 0xFE00707F#32 = 0x00000033#32) :
    decode w = .ok (.add (rdField w) (rs1Field w) (rs2Field w)) := by
  have hop : opcodeField w &&& BitVec.allOnes 7 = 0x33#7 := (opcodeField_and w _).symm.trans (congrArg opcodeField h)
  have hf3 : funct3Field w &&& BitVec.allOnes 3 = 0b000#3 := (funct3Field_and w _).symm.trans (congrArg funct3Field h)
  have hf7 : funct7Field w &&& BitVec.allOnes 7 = 0b0000000#7 :=
    (funct7Field_and w _).symm.trans (congrArg funct7Field h)
  rw [BitVec.and_allOnes] at hop hf3 hf7
  exact (decode_ok_add_iff w _ _ _).mpr ⟨hop, hf3, hf7, rfl, rfl, rfl⟩

/-- A word outside both rows is rejected (R66, R68). -/
theorem decode_error_of_no_row (haddi : w &&& 0x0000707F#32 ≠ 0x00000013#32)
    (hadd : w &&& 0xFE00707F#32 ≠ 0x00000033#32) :
    decode w = .error { word := w, opcode := opcodeField w, funct3 := reportedFunct3 w } := by
  refine decode_error_of_ne_ok fun i hi => ?_
  cases i with
  | addi rd rs1 imm => exact haddi (and_rowMask_of_decode hi)
  | add rd rs1 rs2 => exact hadd (and_rowMask_of_decode hi)

end rows

end Sys2Proof

namespace Sys2Proof.Machine

/-- The value of a sum written to a destination, as a natural (R100, R101). -/
theorem toNat_destValue_add (rd : RegIndex) (a b : Word) :
    (destValue rd (a + b)).toNat = if rd = 0#5 then 0 else (a.toNat + b.toNat) % 2 ^ 32 := by
  unfold destValue
  split
  · rfl
  · exact BitVec.toNat_add a b

/-- Which value goes to x0 makes no difference (R22). -/
theorem destValue_congr {rd : RegIndex} {v v' : Word} (h : rd ≠ 0#5 → v = v') : destValue rd v = destValue rd v' := by
  by_cases hrd : rd = 0#5
  · rw [destValue, destValue, if_pos hrd, if_pos hrd]
  · rw [h hrd]

/-- The next state of a step that writes one register. -/
theorem step_write_effect {s : State} {rd : RegIndex} {v : Word} (h : step s = .next (rfWrite (advancePc s) rd v)) :
    ∃ t, step s = .next t ∧ rfRead t rd = destValue rd v ∧ RegistersSameBut rd s t ∧
      SameButRegisters (advancePc s) t :=
  ⟨_, h, rfRead_rfWrite_eq_destValue _ _ _, registersSameBut_rfWrite_advancePc s rd v, sameButRegisters_rfWrite _ rd v⟩

/-- Two steps in a row that write one register, the second from its value: it reads what the first wrote (R86). -/
theorem step_reads_value_just_written {s t : State} {rd : RegIndex} {v : Word} (f : Word → Word)
    (first : step s = .next (rfWrite (advancePc s) rd v)) (ht : step s = .next t)
    (second : step t = .next (rfWrite (advancePc t) rd (f (rfRead t rd)))) :
    ∃ t', step t = .next t' ∧ rfRead t' rd = destValue rd (f v) ∧ t'.pc = s.pc + 8#32 := by
  obtain rfl : t = rfWrite (advancePc s) rd v := Host.Outcome.next.inj (ht.symm.trans first)
  refine ⟨_, second, ?_, ?_⟩
  · rw [rfRead_rfWrite_eq_destValue]
    refine destValue_congr fun hrd => ?_
    rw [rfRead_rfWrite_eq_destValue, destValue_of_ne_zero hrd]
  · rw [rfWrite_pc, advancePc_pc, rfWrite_pc, advancePc_pc, BitVec.add_assoc]
    rfl

end Sys2Proof.Machine

open Sys2Proof Sys2Proof.Machine

/-- Settles O3: a word decodes exactly when it lies in a row, and a Running step on any other records the report. -/
theorem opcodeMapByMaskAndMatch : Obligations.OpcodeMapByMaskAndMatch := by
  unfold Obligations.OpcodeMapByMaskAndMatch
  refine ⟨fun w => ⟨?_, fun h => ⟨_, _, _, decode_of_addi_row h⟩⟩, fun w => ⟨?_, fun h => ⟨_, _, _, decode_of_add_row h⟩⟩,
    fun w haddi hadd => ?_, ⟨_, decode_of_opcode_ne (by decide) (by decide)⟩, fun w hop => ?_⟩
  · rintro ⟨rd, rs1, imm, h⟩
    exact and_rowMask_of_decode h
  · rintro ⟨rd, rs1, rs2, h⟩
    exact and_rowMask_of_decode h
  · have hd := decode_error_of_no_row haddi hadd
    exact ⟨_, hd, rfl, fun s hr hf => ⟨_, step_of_decode_error s w _ hr hf hd, raise_status _ _⟩⟩
  · exact ⟨_, decode_of_opcode_ne (by rw [hop]; decide) (by rw [hop]; decide)⟩

/-- Settles O14: the sum is written through the guarded port, whose frame it has. -/
theorem addiEffectAndFrame : Obligations.AddiEffectAndFrame := by
  unfold Obligations.AddiEffectAndFrame
  intro rd rs1 imm s
  refine ⟨_, exec_addi rd rs1 imm s, ?_, registersSameBut_rfWrite s rd _, sameButRegisters_rfWrite s rd _⟩
  rw [rfRead_rfWrite_eq_destValue, toNat_destValue_add]

/-- Settles O15: the sum is written through the guarded port, whose frame it has. -/
theorem addEffectAndFrame : Obligations.AddEffectAndFrame := by
  unfold Obligations.AddEffectAndFrame
  intro rd rs1 rs2 s
  refine ⟨_, exec_add rd rs1 rs2 s, ?_, registersSameBut_rfWrite s rd _, sameButRegisters_rfWrite s rd _⟩
  rw [rfRead_rfWrite_eq_destValue, toNat_destValue_add]

/-- Settles O18: a word of the row decodes to ADDI of its fields, and the step writes that ADDI's sum. -/
theorem addiWordAtPcRuns : Obligations.AddiWordAtPcRuns := by
  unfold Obligations.AddiWordAtPcRuns
  refine ⟨fun s w hr hf hrow => ?_, fun s hr hf h5 => ?_⟩
  · have hstep := step_of_decode_addi hr hf (decode_of_addi_row hrow)
    rw [sext_imm12_eq_signExtend] at hstep
    exact step_write_effect hstep
  · have hd : decode 0xFFF28293#32 = .ok (.addi 5#5 5#5 0xFFFFFFFF#32) := by decide
    obtain ⟨t, ht, hrd, -⟩ := step_write_effect (step_of_decode_addi hr hf hd)
    refine ⟨t, ht, ?_⟩
    rw [hrd, h5]
    decide

/-- Settles O19: a word of the row decodes to ADD of its fields, and the step writes that ADD's sum. -/
theorem addWordAtPcRuns : Obligations.AddWordAtPcRuns := by
  unfold Obligations.AddWordAtPcRuns
  refine ⟨fun s w hr hf hrow => step_write_effect (step_of_decode_add hr hf (decode_of_add_row hrow)),
    fun s hr hf h5 h6 => ?_⟩
  have hd : decode 0x006283B3#32 = .ok (.add 7#5 5#5 6#5) := by decide
  obtain ⟨t, ht, hrd, -⟩ := step_write_effect (step_of_decode_add hr hf hd)
  refine ⟨t, ht, ?_⟩
  rw [hrd, h5, h6]
  decide

/-- Settles O30: the four bytes are the word fetched, and the core is Running since the first of them is in the image. -/
theorem stepRunsTheDecodedInstruction : Obligations.StepRunsTheDecodedInstruction := by
  unfold Obligations.StepRunsTheDecodedInstruction
  intro s b0 b1 b2 b3 i hnone h4 h0 h1 h2 h3 hd
  obtain ⟨hlt, -⟩ := (readByte_eq_some_iff _ _ _).mp h0
  exact step_of_decode_ok ((status_running_iff s).mpr ⟨hnone, hlt⟩) (readWord_of_readByte h4 h0 h1 h2 h3) hd

/-- Settles O31: the second step reads through the port the first one wrote through; for rd = 0 both write nothing. -/
theorem nextInstructionReadsTheValueJustWritten : Obligations.NextInstructionReadsTheValueJustWritten := by
  unfold Obligations.NextInstructionReadsTheValueJustWritten
  refine ⟨fun s t w w' rd rs1 a b hr hf hd ht hr' hf' hd' => ?_,
    fun s t w w' rd rs1 rs2 hr hf hd ht hr' hf' hd' => ?_⟩
  · exact step_reads_value_just_written (fun x => x + b) (step_of_decode_addi hr hf hd) ht
      (step_of_decode_addi hr' hf' hd')
  · exact step_reads_value_just_written (fun x => x + x) (step_of_decode_add hr hf hd) ht
      (step_of_decode_add hr' hf' hd')
end

section
/-! What the core reports and where a step leads, read off the status function and `step_next_cases` (R30, R83, R131, R132,
R134), and the statements O28, O34, O35, O36, O38 and O39. -/

namespace Sys2Proof.Machine

/-- A step reports an error only by error entry, of a fetch or of a word (R81, R82, R134). -/
theorem step_error_cases {s t : State} {e : ErrorRecord} (h : step s = .next t) (he : t.error = some e) :
    (fetch s = .err e ∧ t = raise e s) ∨
    (∃ w u, fetch s = .ok w ∧ decode w = .error u ∧ e = unsupportedRecord u s.pc ∧ t = raise e (advancePc s)) := by
  obtain ⟨hr, ⟨e', hf, rfl⟩ | ⟨w, u, hf, hd, rfl⟩ | ⟨w, i, -, -, hx⟩⟩ := step_next_cases s t h
  · obtain rfl := Option.some.inj he
    exact .inl ⟨hf, rfl⟩
  · obtain rfl := Option.some.inj he
    exact .inr ⟨w, u, hf, hd, rfl, rfl⟩
  · obtain ⟨hnone, -⟩ := (status_running_iff s).mp hr
    obtain ⟨rd, v, rfl⟩ := exec_next_cases i _ t hx
    rw [rfWrite_error, advancePc_error, hnone] at he
    cases he

end Sys2Proof.Machine

open Sys2Proof Sys2Proof.Machine

/-- Settles O28: every step keeps the image, of which bytes and words are read. -/
theorem noStepWritesMemory : Obligations.NoStepWritesMemory := by
  unfold Obligations.NoStepWritesMemory
  intro s t h
  obtain ⟨hlen, hmem⟩ := step_next_image h
  exact ⟨hlen, readByte_of_same_image hlen hmem, readWord_of_same_image hlen hmem⟩

/-- Settles O34: the word's report, recorded by error entry after the pc advance. -/
theorem undecodableWordEntersFaulted : Obligations.UndecodableWordEntersFaulted := by
  unfold Obligations.UndecodableWordEntersFaulted
  intro s w hr hf hno
  exact ⟨_, step_of_decode_error s w _ hr hf (decode_error_of_ne_ok hno), raise_status _ _, rfl, rfl, rfl, rfl⟩

/-- Settles O35: the fetch fails exactly when the bound does, and only a failed fetch is recorded as OutOfBoundsFetch. -/
theorem partialWordIsOutOfBoundsFetch : Obligations.PartialWordIsOutOfBoundsFetch := by
  unfold Obligations.PartialWordIsOutOfBoundsFetch
  refine ⟨fun s hnone h4 hlt hpart => ?_, fun s t a h he => ?_,
    fun s hnone hge => (status_halted_iff s).mpr ⟨hnone, hge⟩⟩
  · have hr : s.status = .running := (status_running_iff s).mpr ⟨hnone, hlt⟩
    exact step_of_fetch_err s _ hr ((readWord_err_iff s s.pc _).mpr ⟨h4, hpart, rfl⟩)
  · obtain ⟨-, hlt⟩ := (status_running_iff s).mp (status_running_of_step h)
    obtain ⟨hf, -⟩ | ⟨w, u, -, -, hrec, -⟩ := step_error_cases h he
    · obtain ⟨-, hpart, hrec⟩ := (readWord_err_iff s s.pc _).mp hf
      exact ⟨ErrorRecord.outOfBoundsFetch.inj hrec, hlt, hpart⟩
    · cases hrec

/-- Settles O36: error entry changes nothing but the error, before it only the fetch unit has moved pc. -/
theorem errorEntryIsPrecise : Obligations.ErrorEntryIsPrecise := by
  unfold Obligations.ErrorEntryIsPrecise
  intro s t e h hs
  obtain ⟨hf, rfl⟩ | ⟨w, u, hf, hd, hrec, rfl⟩ := step_error_cases h ((status_faulted_iff t e).mp hs)
  · obtain ⟨-, -, hrec⟩ := (readWord_err_iff s s.pc e).mp hf
    exact ⟨rfl, rfl, rfl, .inl ⟨hrec, rfl⟩⟩
  · obtain rfl := eq_of_decode_error hd
    exact ⟨rfl, rfl, rfl, .inr ⟨w, _, _, hrec, hf, rfl⟩⟩

/-- Settles O38: Halted is a test of the error and pc; a step that leaves pc in place leaves the core Running or Faulted. -/
theorem haltedWhenThePcLeavesTheImage : Obligations.HaltedWhenThePcLeavesTheImage := by
  unfold Obligations.HaltedWhenThePcLeavesTheImage
  refine ⟨fun s => ?_, fun s hs => ⟨?_, runLoop_of_halted hs⟩,
    fun cfg s h => (construct_ok_status_halted_iff h).mpr rfl, fun s t h hs => ?_⟩
  · simp only [status_halted_iff, ne_eq, status_faulted_iff, Option.eq_none_iff_forall_ne_some]
  · obtain ⟨-, hstep⟩ | ⟨e, hs', -⟩ | ⟨hs', -⟩ | ⟨hs', -⟩ := step_cases s
    · exact hstep
    all_goals
      rw [hs] at hs'
      cases hs'
  · obtain ⟨-, hend⟩ := (status_halted_iff t).mp hs
    refine ⟨hend, ?_⟩
    obtain ⟨-, hlt⟩ := (status_running_iff s).mp (status_running_of_step h)
    obtain ⟨hlen, -⟩ := step_next_image h
    obtain ⟨-, hpc⟩ | ⟨-, hpc⟩ := step_next_pc_cases h
    · rw [hpc, hlen] at hend
      omega
    · exact hpc

/-- Settles O39: the three cases of the status. -/
theorem statusIsAFunctionOfErrorPcAndLength : Obligations.StatusIsAFunctionOfErrorPcAndLength := by
  unfold Obligations.StatusIsAFunctionOfErrorPcAndLength
  exact ⟨fun s e he => (status_faulted_iff s e).mpr he, fun s hnone hge => (status_halted_iff s).mpr ⟨hnone, hge⟩,
    fun s hnone hlt => (status_running_iff s).mpr ⟨hnone, hlt⟩⟩
end

section
/-! What a step takes from the register file: only what the read port gives, and of that nothing for pc, the error or memory
(R21, R120); and the statements O10, O13 and O41. -/

namespace Sys2Proof.Machine

section registerContents
variable {a b : State}

theorem SameButRegisters.rfWrite (h : SameButRegisters a b) (rd : RegIndex) (v v' : Word) :
    SameButRegisters (rfWrite a rd v) (rfWrite b rd v') where
  pc := by rw [rfWrite_pc, rfWrite_pc, h.pc]
  imageLen := by rw [rfWrite_imageLen, rfWrite_imageLen, h.imageLen]
  mem := by rw [rfWrite_mem, rfWrite_mem, h.mem]
  bytes k := by rw [rfWrite_readByte, rfWrite_readByte, h.bytes]
  error := by rw [rfWrite_error, rfWrite_error, h.error]

/-- The same write to states that read alike leaves them reading alike. -/
theorem SameRegisters.rfWrite (h : SameRegisters a b) (rd : RegIndex) (v : Word) :
    SameRegisters (rfWrite a rd v) (rfWrite b rd v) := by
  intro j
  by_cases hj : j = rd
  · rw [hj, rfRead_rfWrite_eq_destValue, rfRead_rfWrite_eq_destValue]
  · rw [rfRead_rfWrite_of_ne a v hj, rfRead_rfWrite_of_ne b v hj, h j]

/-- An operation at two states that agree but for their registers: it leaves them so, and reading alike if they did. -/
theorem exec_sameButRegisters (i : Instr) (h : SameButRegisters a b) {t : State} (hx : exec i a = .next t) :
    ∃ t', exec i b = .next t' ∧ SameButRegisters t t' ∧ (SameRegisters a b → SameRegisters t t') := by
  cases i with
  | addi rd rs1 imm =>
    rw [exec_addi] at hx
    cases hx
    refine ⟨_, exec_addi rd rs1 imm b, h.rfWrite rd _ _, fun hreg => ?_⟩
    rw [hreg rs1]
    exact hreg.rfWrite rd _
  | add rd rs1 rs2 =>
    rw [exec_add] at hx
    cases hx
    refine ⟨_, exec_add rd rs1 rs2 b, h.rfWrite rd _ _, fun hreg => ?_⟩
    rw [hreg rs1, hreg rs2]
    exact hreg.rfWrite rd _

end registerContents

/-- A step with other register contents is the same step, and if those read alike it leaves them reading alike. -/
theorem step_with_xStore {s t : State} (xs : Vector Word 32) (h : step s = .next t) :
    ∃ t', step { s with xStore := xs } = .next t' ∧ SameButRegisters t t' ∧
      (SameRegisters s { s with xStore := xs } → SameRegisters t t') := by
  obtain ⟨hr, ⟨e, hf, rfl⟩ | ⟨w, u, hf, hd, rfl⟩ | ⟨w, i, hf, hd, hx⟩⟩ := step_next_cases s t h
  · exact ⟨_, step_of_fetch_err _ e hr hf, ⟨rfl, rfl, rfl, fun _ => rfl, rfl⟩, id⟩
  · exact ⟨_, step_of_decode_error _ w u hr hf hd, ⟨rfl, rfl, rfl, fun _ => rfl, rfl⟩, id⟩
  · have same : SameButRegisters (advancePc s) (advancePc { s with xStore := xs }) :=
      ⟨rfl, rfl, rfl, fun _ => rfl, rfl⟩
    rw [step_of_decode_ok (s := { s with xStore := xs }) hr hf hd]
    exact exec_sameButRegisters i same hx

/-- The read port gives nothing of x0's storage (R21, decision D10). -/
theorem sameRegisters_set_x0 (s : State) (v : Word) : SameRegisters s { s with xStore := s.xStore.set 0 v } := by
  intro j
  by_cases hj : j = 0#5
  · rw [hj]
    rfl
  · have ne_zero : 0 ≠ j.toNat := fun h => hj (BitVec.eq_of_toNat_eq h.symm)
    rw [rfRead_of_ne_zero _ hj, rfRead_of_ne_zero _ hj, Vector.getElem_set_ne _ _ ne_zero]

end Sys2Proof.Machine

open Sys2Proof.Machine

/-- Settles O10: the two branches of the read port. -/
theorem x0ReadsZeroWhateverItsStorage : Obligations.X0ReadsZeroWhateverItsStorage := by
  unfold Obligations.X0ReadsZeroWhateverItsStorage
  exact fun s => ⟨rfl, fun _ hi => rfRead_of_ne_zero s hi⟩

/-- Settles O13: another value in x0's storage is other register contents that read alike. -/
theorem x0StorageIsUnobservable : Obligations.X0StorageIsUnobservable := by
  unfold Obligations.X0StorageIsUnobservable
  intro s v t h
  obtain ⟨t', ht', hsame, hreg⟩ := step_with_xStore (s.xStore.set 0 v) h
  exact ⟨t', ht', hreg (sameRegisters_set_x0 s v), hsame⟩

/-- Settles O41: the step with other register contents, whatever they read as. -/
theorem controlFlowIgnoresRegisters : Obligations.ControlFlowIgnoresRegisters := by
  unfold Obligations.ControlFlowIgnoresRegisters
  intro s t xs h
  obtain ⟨t', ht', hsame, -⟩ := step_with_xStore xs h
  exact ⟨t', ht', hsame⟩
end

section
/-! What construction answers, refuses and establishes (R34, R47, R160, R161), and the statements O23, O25, O27, O42 and
O43. -/

namespace Sys2Proof.Machine

/-- No write of construction reaches the storage of x0 (R34). -/
theorem initial_x0Stored (cfg : Config) : (State.initial cfg).xStore[0] = 0#32 := rfl

/-- A program under a valid capacity that holds it is never refused (R47). -/
theorem construct_ok_of_fits {cfg : Config} {program : List Byte} (hv : cfg.Valid)
    (hfits : program.length ≤ cfg.memCapacity) : ∃ s, construct cfg program = .ok s :=
  ⟨_, (construct_ok_iff cfg program _).mpr ⟨hv, hfits, rfl⟩⟩

theorem construct_of_capacity_out_of_range {cfg : Config} (program : List Byte) (hv : ¬ cfg.Valid) :
    construct cfg program = .error (.capacityOutOfRange cfg.memCapacity) :=
  if_pos hv

theorem construct_of_program_too_long {cfg : Config} {program : List Byte} (hv : cfg.Valid)
    (hlong : cfg.memCapacity < program.length) : construct cfg program = .error (.programTooLong program.length) := by
  rw [construct, if_neg (not_not.mpr hv), if_pos hlong]

/-- Construction establishes the invariant: pc and the error are reset's, the memory is one row of bytes. -/
theorem inv_of_construct {cfg : Config} {program : List Byte} {s : State} (h : construct cfg program = .ok s) :
    Inv cfg s := by
  obtain ⟨hv, hfits, rfl⟩ := (construct_ok_iff cfg program s).mp h
  exact {
    capacity := hv
    imageFits := hfits
    pcAligned := rfl
    pcInImage := Nat.zero_le _
    x0Stored := initial_x0Stored cfg
    memCanonical := Memory.load_wf 0 program Memory.wf_nil
    memInImage := by
      intro c hc
      obtain ⟨-, hlt⟩ | hnil := Memory.mem_load hc
      · rwa [Nat.zero_add] at hlt
      · cases hnil
    errorDescribes := trivial }

/-- The model's reset is a construction (R164; assumption 2). -/
theorem construct_default_nil : construct Config.default [] = .ok State.reset :=
  (construct_ok_iff Config.default [] State.reset).mpr ⟨by decide, Nat.zero_le _, rfl⟩

end Sys2Proof.Machine

open Sys2Proof.Machine

/-- Settles O23: the state construction answers, field by field. -/
theorem constructionLoadsTheProgramVerbatim : Obligations.ConstructionLoadsTheProgramVerbatim := by
  unfold Obligations.ConstructionLoadsTheProgramVerbatim
  intro cfg program hv hfits
  obtain ⟨s, h⟩ := construct_ok_of_fits hv hfits
  refine ⟨s, h, construct_ok_imageLen h, construct_ok_readByte h, ?_, fun i hi => ?_, construct_ok_pc h,
    construct_ok_error h, ?_⟩
  · rw [construct_ok_rfRead h, toNat_initial_rfRead_one hv]
  · rw [construct_ok_rfRead h, initial_rfRead_of_ne_one cfg hi]
  · split
    · next hpos => exact (construct_ok_status_running_iff h).mpr hpos
    · next hzero =>
      exact (construct_ok_status_halted_iff h).mpr (List.eq_nil_of_length_eq_zero (Nat.eq_zero_of_not_pos hzero))

/-- Settles O25: the two refusals, in the order construction tests for them. -/
theorem constructionRefusesWhatDoesNotFit : Obligations.ConstructionRefusesWhatDoesNotFit := by
  unfold Obligations.ConstructionRefusesWhatDoesNotFit
  exact ⟨fun _ program hv => construct_of_capacity_out_of_range program hv,
    fun _ _ hv hlong => construct_of_program_too_long hv hlong⟩

/-- Settles O27: no bytes are loaded under the default capacity, so reset's state is left. -/
theorem resetIsTheDefaultConstructionOfNoProgram : Obligations.ResetIsTheDefaultConstructionOfNoProgram := by
  unfold Obligations.ResetIsTheDefaultConstructionOfNoProgram
  exact construct_default_nil

/-- Settles O42: reset is a construction. -/
theorem invariantHoldsAtReset : Obligations.InvariantHoldsAtReset := by
  unfold Obligations.InvariantHoldsAtReset
  exact inv_of_construct construct_default_nil

/-- Settles O43: reset's fields, and a memory loaded in one row below IMAGE_LEN. -/
theorem constructionEstablishesTheInvariant : Obligations.ConstructionEstablishesTheInvariant := by
  unfold Obligations.ConstructionEstablishesTheInvariant
  exact fun _ _ _ h => inv_of_construct h
end

section
/-! The canonical form of memory is told by its reads (assumption 4), what loading leaves alone, and with them the statements
O29 and O32. -/

namespace Sys2Proof

/-- What a table word decodes to, the decoder gives of the word itself. -/
theorem decode_of_decodeTableWord {nbits w : Nat} {i : Instr} (h : decodeTableWord nbits w = some i) :
    decode (tableWord nbits w) = .ok i := by
  rw [decodeTableWord_eq] at h
  cases hd : decode (tableWord nbits w) with
  | error u =>
    rw [hd] at h
    cases h
  | ok j =>
    rw [hd] at h
    cases h
    rfl

end Sys2Proof

namespace Sys2Proof.Machine

/-- In a memory whose addresses rise, an entry is what its address reads as. -/
theorem Memory.read_of_mem {m : Memory} (hrise : m.Pairwise fun c d => c.1 < d.1) {c : Host.Cell} (hc : c ∈ m) :
    Memory.read m c.1 = c.2 := by
  induction m with
  | nil => cases hc
  | cons d m ih =>
    obtain ⟨hd, hrest⟩ := List.pairwise_cons.mp hrise
    obtain rfl | hc := List.mem_cons.mp hc
    · exact if_pos rfl
    · rw [Memory.read, if_neg (Nat.ne_of_lt (hd c hc)), ih hrest hc]

/-- What reads as other than an unlisted address is listed. -/
theorem Memory.mem_of_read_ne_unlisted {m : Memory} {a : Nat} (h : Memory.read m a ≠ Memory.unlisted) :
    (a, Memory.read m a) ∈ m := by
  induction m with
  | nil => exact absurd rfl h
  | cons c m ih =>
    rw [Memory.read] at h ⊢
    split at h
    · next hc =>
      rw [if_pos hc, ← hc]
      exact List.mem_cons_self
    · next hc =>
      rw [if_neg hc]
      exact List.mem_cons_of_mem c (ih h)

/-- A canonical memory lists exactly the bytes its reads tell from unlisted ones. -/
theorem Memory.mem_iff_read {m : Memory} (hm : Memory.wf m) (c : Host.Cell) :
    c ∈ m ↔ Memory.read m c.1 = c.2 ∧ c.2 ≠ Memory.unlisted := by
  obtain ⟨hrise, hlisted⟩ := hm
  constructor
  · exact fun hc => ⟨Memory.read_of_mem hrise hc, hlisted c hc⟩
  · rintro ⟨hread, hne⟩
    rw [← hread] at hne
    have listed := Memory.mem_of_read_ne_unlisted hne
    rwa [hread] at listed

/-- Loading bytes leaves every address above them alone. -/
theorem Memory.read_load_of_ge {a b : Nat} (bs : List Byte) (m : Memory) (h : a + bs.length ≤ b) :
    Memory.read (Memory.load a bs m) b = Memory.read m b := by
  induction bs generalizing a m with
  | nil => rfl
  | cons x bs ih =>
    rw [List.length_cons] at h
    rw [Memory.load, ih _ (by omega), Memory.read_write_of_ne _ _ (by omega)]

section placedWord
variable (s : State)

/-- Bit by bit the loader's mask clears the two low bits, so the place is the last multiple of 4 up to pc. -/
theorem toNat_placeAddress : (placeAddress s).toNat = s.pc.toNat / 4 * 4 := by
  have place_eq : placeAddress s = s.pc >>> 2 <<< 2 := by
    refine BitVec.eq_of_getLsbD_eq fun i hi => ?_
    rw [placeAddress]
    interval_cases i <;> simp
  have fits : s.pc.toNat / 4 * 4 < 2 ^ 32 := (Nat.div_mul_le_self _ _).trans_lt s.pc.isLt
  rw [place_eq, BitVec.toNat_shiftLeft, BitVec.toNat_ushiftRight, Nat.shiftLeft_eq, Nat.shiftRight_eq_div_pow,
    Nat.mod_eq_of_lt fits]

theorem toNat_placeAddress_mod_four : (placeAddress s).toNat % 4 = 0 := by
  rw [toNat_placeAddress]
  exact Nat.mul_mod_left _ 4

theorem placeAddress_of_aligned (h4 : s.pc.toNat % 4 = 0) : placeAddress s = s.pc := by
  apply BitVec.eq_of_toNat_eq
  rw [toNat_placeAddress, Nat.div_mul_cancel (Nat.dvd_of_mod_eq_zero h4)]

variable (nbits w : Nat)

/-- A byte of the placed word, at its place. -/
theorem readByte_withFetchWord {k : Nat} (hk : k < 4) :
    readByte (s.withFetchWord nbits w) ((placeAddress s).toNat + k) = (bytesOfWord (tableWord nbits w))[k]? := by
  have hlen : k < (bytesOfWord (tableWord nbits w)).length := hk
  rw [List.getElem?_eq_getElem hlen]
  exact (readByte_eq_some_iff _ _ _).mpr
    ⟨lt_max_of_lt_right (Nat.add_lt_add_left hk _), Memory.read_load _ _ s.mem k hlen⟩

/-- The placed word is the one fetched next (assumption 3). -/
theorem fetch_withFetchWord : fetch (s.withFetchWord nbits w) = .ok (tableWord nbits w) := by
  have byteAt {k : Nat} (hk : k < 4) := readByte_withFetchWord s nbits w hk
  have word := readWord_of_readByte (s := s.withFetchWord nbits w) (toNat_placeAddress_mod_four s)
    (byteAt (k := 0) (by decide)) (byteAt (k := 1) (by decide)) (byteAt (k := 2) (by decide))
    (byteAt (k := 3) (by decide))
  rwa [wordOfBytes_byteOfWord] at word

theorem status_withFetchWord : (s.withFetchWord nbits w).status = .running :=
  (status_running_iff _).mpr ⟨rfl, lt_max_of_lt_right (Nat.lt_add_of_pos_right (by decide))⟩

/-- The loader leaves every byte of the image outside the placed word alone. -/
theorem readByte_withFetchWord_of_outside {a : Nat}
    (hout : a < (placeAddress s).toNat ∨ (placeAddress s).toNat + 4 ≤ a) (ha : a < s.imageLen) :
    readByte (s.withFetchWord nbits w) a = readByte s a := by
  have same_read : Memory.read (s.withFetchWord nbits w).mem a = Memory.read s.mem a := by
    obtain hlt | hge := hout
    · exact Memory.read_load_of_lt _ s.mem hlt
    · exact Memory.read_load_of_ge _ s.mem hge
  rw [(readByte_eq_some_iff s a _).mpr ⟨ha, rfl⟩]
  exact (readByte_eq_some_iff _ _ _).mpr ⟨lt_max_of_lt_left ha, same_read⟩

end placedWord

end Sys2Proof.Machine

open Sys2Proof Sys2Proof.Machine

/-- Settles O29: canonical memories that read alike list the same entries, and rising addresses leave one order for them. -/
theorem canonicalMemoriesThatReadAlikeAreEqual : Obligations.CanonicalMemoriesThatReadAlikeAreEqual := by
  unfold Obligations.CanonicalMemoriesThatReadAlikeAreEqual
  intro m m' hm hm' hread
  have rising_irrefl : Std.Irrefl fun c d : Host.Cell => c.1 < d.1 := ⟨fun c => Nat.lt_irrefl c.1⟩
  have rising_antisymm : Std.Antisymm fun c d : Host.Cell => c.1 < d.1 :=
    ⟨fun c d hcd hdc => absurd hdc (Nat.lt_asymm hcd)⟩
  refine hm.1.eq_of_mem_iff hm'.1 fun c => ?_
  rw [Memory.mem_iff_read hm, Memory.mem_iff_read hm', hread]

/-- Settles O32: the placed word is the one fetched, by a core that is Running; loading leaves the bytes around it alone. -/
theorem placedWordRunsNext : Obligations.PlacedWordRunsNext := by
  unfold Obligations.PlacedWordRunsNext
  refine ⟨fun s w i h => ?_, fun s w h4 => ⟨placeAddress_of_aligned s h4, fun _ => rfl, fun a hout ha => ?_⟩⟩
  · exact step_of_decode_ok (status_withFetchWord s 32 w) (fetch_withFetchWord s 32 w) (decode_of_decodeTableWord h)
  · rw [← placeAddress_of_aligned s h4] at hout
    exact readByte_withFetchWord_of_outside s 32 w hout ha
end

section
/-! The words of the pseudo-instructions, each an ADDI put together by shifts (R62, R72), and the statement O9. -/

namespace Sys2Proof

/-- An ADDI's word as the OR of its fields at their places (R62, R100). -/
theorem iFormat_eq_or_shifts (imm12 : BitVec 12) (rs1 rd : RegIndex) :
    iFormat imm12 rs1 0b000#3 rd 0x13#7 =
      0x00000013#32 ||| zext rd <<< 7 ||| zext rs1 <<< 15 ||| zext imm12 <<< 20 := by
  refine BitVec.eq_of_getLsbD_eq fun i hi => ?_
  simp only [getLsbD_iFormat, zext, BitVec.getLsbD_or, BitVec.getLsbD_shiftLeft, BitVec.getLsbD_setWidth]
  interval_cases i <;> simp

/-- The low twelve bits of a word, zero-extended, are the word under the mask 0xFFF. -/
theorem zext_extractLsb_imm (imm : Word) : zext (imm.extractLsb 11 0 : BitVec 12) = imm &&& 0xFFF#32 := by
  refine BitVec.eq_of_getLsbD_eq fun i hi => ?_
  rw [getLsbD_zext _ hi, BitVec.getLsbD_extractLsb, BitVec.getLsbD_and]
  interval_cases i <;> simp

theorem encode_addi_eq_or_shifts (rd rs1 : RegIndex) (imm : Word) : encode (.addi rd rs1 imm) =
    0x00000013#32 ||| zext rd <<< 7 ||| zext rs1 <<< 15 ||| (imm &&& 0xFFF#32) <<< 20 := by
  rw [encode, iFormat_eq_or_shifts, zext_extractLsb_imm]

end Sys2Proof

open Sys2Proof Sys2Proof.Machine

/-- Settles O9: each pseudo-instruction is an ADDI with rs1 or the immediate 0, whose shifted field then adds no bit. -/
theorem pseudoInstructionsAreTheseWords : Obligations.PseudoInstructionsAreTheseWords := by
  unfold Obligations.PseudoInstructionsAreTheseWords
  refine ⟨by decide, fun rd rs => ?_, fun rd imm hmin hmax => ?_, fun rd imm hout => ?_⟩
  · have line : assemble (.mv rd rs) = some (.addi rd rs 0#32) := rfl
    have no_imm : (0#32 &&& 0xFFF#32) <<< 20 = 0#32 := by decide
    rw [line, Option.map_some, encode_addi_eq_or_shifts, no_imm, BitVec.or_zero]
  · have line : assemble (.li rd imm) = some (.addi rd 0#5 (BitVec.ofInt 32 imm)) := if_pos ⟨hmin, hmax⟩
    have no_rs1 : zext 0#5 <<< 15 = 0#32 := by decide
    rw [line, Option.map_some, encode_addi_eq_or_shifts, no_rs1, BitVec.or_zero]
  · exact if_neg (by omega)
end
